-- ==== Sys2Proof/Word.lean ====
section
/-! DEFINITION. The word types of the core, after 10_state.md rules R21, R27, R29 and R39.
The periods, phases, accumulators and elapsed counters are `CW` bits wide (R39), and `CW` is a parameter of the build
(R10): they are naturals, and each addition to one of them is made modulo `2^CW` by `Machine.addMod` (log 1). -/

namespace Sys2Proof

/-- One byte of the MIDI stream (R11). -/
abbrev Byte := BitVec 8

/-- A MIDI channel, zero-based: the low nibble of a status byte (R91). -/
abbrev Channel := BitVec 4

/-- A channel volume, 0..15 (R26). -/
abbrev Volume := BitVec 4

/-- The PRNG state (R27). -/
abbrev Seed := BitVec 16

/-- The number of a voice slot, 0..19 (R8 `NVOICES`, R21). -/
abbrev VoiceIx := Fin 20

/-- The id of a percussion program, 0..10 (R8 `NPROG`, R103). -/
abbrev ProgramId := Fin 11

end Sys2Proof
end

