-- ==== Sys2Proof/Config.lean ====
section
/-! DEFINITION. What a build of the core fixes: the read-only tables (R9, R60 to R65), the scalar parameters
(R10) and the fixed constants (R8). The constraints of R9 are carried by the types where a type can say them. -/

namespace Sys2Proof.Config

/-- One segment record, the ten fields in the order of R106. `volume` is 0..15 and `mixMask` two bits by type
(R100, R101); `envShape` has no stated width and no rule reads it (R100, log 12). -/
structure Segment where
  duration : Nat
  tonePeriod : Nat
  noisePeriod : Nat
  mixMask : BitVec 2
  volume : BitVec 4
  envDuration : Nat
  envShape : Nat
  toneSweepStep : Nat
  noiseSweepStep : Nat
  noiseSweepPeriod : Nat
  deriving DecidableEq, Repr, Inhabited

/-- A percussion program: an ordered list of segments, never empty (R64, R103). -/
structure Program where
  first : Segment
  rest : List Segment
  deriving DecidableEq, Repr, Inhabited

/-- `COMMIT_GRANULARITY` (R10, R76): the whole action of a message in one transition, or one shared record at a
time. -/
inductive Granularity where
  | message
  | record
  deriving DecidableEq, Repr, Inhabited

/-- The counts of a segment are of `CW` bits (R100). -/
def Segment.Fits (cw : Nat) (g : Segment) : Prop :=
  g.duration < 2 ^ cw ∧ g.tonePeriod < 2 ^ cw ∧ g.noisePeriod < 2 ^ cw ∧ g.envDuration < 2 ^ cw ∧
    g.toneSweepStep < 2 ^ cw ∧ g.noiseSweepStep < 2 ^ cw ∧ g.noiseSweepPeriod < 2 ^ cw

/-- A build of the core: every table of R9 and every open scalar of R10, with the defaults R10 gives. An increment or
`FRAME_TIME` is a natural of any size (log 12). An entry of `drumNoteMap` may be any number; R65 treats one outside
0..10 as none. -/
structure Build where
  /-- `CW` (R10, R39). -/
  cw : Nat := 32
  /-- `NOTE_HALF` (R61); `Build.Fits` says that each entry is below `2^(CW-1)`. -/
  noteHalf : Vector Nat 128
  /-- `VOICE_CURVE`, each entry at most 255 (R62). -/
  voiceCurve : Vector Byte 32
  /-- `DRUM_CURVE`, each entry at most 255 (R63). -/
  drumCurve : Vector Byte 17
  /-- `PROGRAM` (R64). -/
  program : Vector Program 11
  /-- `DRUM_NOTE_MAP`, index note − 35 (R65). -/
  drumNoteMap : Vector (Option Nat) 23
  voiceTickInc : Nat
  drumTimeInc : Nat
  drumPhaseInc : Nat
  frameTime : Nat
  chvolReset : Volume
  seedReset : Seed := 0
  granularity : Granularity := .message
  deriving DecidableEq, Repr, Inhabited

/-- The build of the machine that `State.reset` describes. R9 and R10 give its fields as parameters without a
value: it has no body, so no proof can learn what it holds (log 2). -/
opaque build : Build

/-- `MIX_DIV` (R8). -/
abbrev mixDiv : Nat := 9

/-- `OUT_MAX` (R8). -/
abbrev outMax : Nat := 255

/-- `DRUM_CH`, zero-based (R8). -/
abbrev drumChannel : Channel := 9

/-- `DRUM_NOTE_LO` (R8). -/
abbrev drumNoteLo : Nat := 35

/-- `DRUM_NOTE_HI` (R8). -/
abbrev drumNoteHi : Nat := 57

/-- The table entries are within the width `CW`: half-periods below `2^(CW-1)` (R9), counts of a segment below `2^CW`
(R100). -/
def Build.Fits (b : Build) : Prop :=
  0 < b.cw ∧ (∀ n : Fin 128, b.noteHalf[n] < 2 ^ (b.cw - 1)) ∧
    ∀ p : ProgramId, ∀ g ∈ b.program[p].first :: b.program[p].rest, g.Fits b.cw

/-- The drum curve saturates: its last two entries are equal, and no entry exceeds their common value, the largest
amplitude the NoiseDrum can output (R9, R63). -/
def Build.Saturates (b : Build) : Prop :=
  b.drumCurve[16] = b.drumCurve[15] ∧ ∀ k : Fin 17, b.drumCurve[k] ≤ b.drumCurve[15]

/-- The constraints of R9, R10 and R63 that no type above carries: the tables fit the width, the voice curve does not
fall, the drum curve saturates, the increments and the frame time are positive. No meaning needs them; a
statement that does takes them as a premise. -/
def Build.Admissible (b : Build) : Prop :=
  b.Fits ∧ (∀ i j : Fin 32, i ≤ j → b.voiceCurve[i] ≤ b.voiceCurve[j]) ∧ b.Saturates ∧
    0 < b.voiceTickInc ∧ 0 < b.drumTimeInc ∧ 0 < b.drumPhaseInc ∧ 0 < b.frameTime

end Sys2Proof.Config
end

