-- ==== Sys2Proof/Machine/Operands.lean ====
section
/-! DEFINITION. The operand forms: how each operand is taken from the bytes of a message (R91, R96, R97, R99). -/

namespace Sys2Proof.Machine

open Config

/-- The message kind, `status[7:4]` (R91). -/
def statusOp (b : Byte) : BitVec 4 := b.extractLsb' 4 4

/-- The channel, `status[3:0]` (R91). -/
def statusChannel (b : Byte) : Channel := b.extractLsb' 0 4

/-- The status byte of a kind and a channel (R92 to R95). -/
def statusByte (op : BitVec 4) (ch : Channel) : Byte := op ++ ch

/-- How many bytes the message or skipped item that begins with `b` has: by the high nibble of `b` alone (R90,
R99). -/
def messageLength (b : Byte) : Nat :=
  if statusOp b = 0x8 ∨ statusOp b = 0x9 ∨ statusOp b = 0xB then 3 else if statusOp b = 0xC then 2 else 1

/-- Controllers 7 and 11: volume (R97). -/
def isVolumeController (c : Byte) : Bool := [7, 11].contains c

/-- Controllers 0, 120, 121 and 123 to 127: channel reset (R97). -/
def isResetController (c : Byte) : Bool := [0, 120, 121, 123, 124, 125, 126, 127].contains c

/-- `value >> 3`, the 4-bit volume of a 7-bit controller value (R96). -/
def volumeOf (value : Byte) : Volume := (value >>> 3).setWidth 4

/-- The program a drum note selects: the range test first, then entry note − 35 of the map; an entry outside 0..10
is none (R188, R65). -/
def drumProgram (b : Build) (note : Byte) : Option ProgramId :=
  if h : drumNoteLo ≤ note.toNat ∧ note.toNat ≤ drumNoteHi then
    match b.drumNoteMap[note.toNat - drumNoteLo]'(by simp only [drumNoteLo, drumNoteHi] at *; omega) with
    | none => none
    | some id => if hid : id < 11 then some ⟨id, hid⟩ else none
  else none

/-- Addition to a period, phase, accumulator or elapsed counter: modulo `2^CW` (R39). -/
def addMod (b : Build) (x y : Nat) : Nat := (x + y) % 2 ^ b.cw

/-- `NOTE_HALF[note]` (R61). -/
def noteHalf (b : Build) (note : BitVec 7) : Nat := b.noteHalf[note.toNat]'(note.isLt)

/-- `VOICE_CURVE[v * 2 + 1]` (R62, R221). -/
def voiceAmplitude (b : Build) (v : Volume) : Nat := (b.voiceCurve[v.toNat * 2 + 1]'(by have := v.isLt; omega)).toNat

/-- `DRUM_CURVE[k]` (R63). -/
def drumAmplitude (b : Build) (k : Fin 17) : Byte := b.drumCurve[k]

/-- The curve index of a sustained segment: its volume (R159). -/
def sustainedIndex (g : Segment) : Fin 17 := ⟨g.volume.toNat, by have := g.volume.isLt; omega⟩

/-- `vol = V − (V × t) / E`, the linearly decaying volume, rounded down (R160). -/
def decayedVolume (g : Segment) (elapsed : Nat) : Nat :=
  g.volume.toNat - g.volume.toNat * elapsed / g.envDuration

theorem scaled_lt_seventeen {v c : Nat} (hv : v < 16) (hc : c < 16) : v * c / 16 < 17 := by
  have := Nat.mul_le_mul (Nat.le_of_lt_succ hv) (Nat.le_of_lt_succ hc)
  omega

theorem decayedVolume_lt (g : Segment) (elapsed : Nat) : decayedVolume g elapsed < 16 :=
  Nat.lt_of_le_of_lt (Nat.sub_le _ _) g.volume.isLt

/-- The curve index of a decaying segment: `(vol × D.chvol) / 16`, at most 14 (R160, R161). -/
def decayedIndex (g : Segment) (elapsed : Nat) (chvol : Volume) : Fin 17 :=
  ⟨decayedVolume g elapsed * chvol.toNat / 16, scaled_lt_seventeen (decayedVolume_lt g elapsed) chvol.isLt⟩

end Sys2Proof.Machine
end

