-- ==== Sys2Proof/Machine/Flags.lean ====
section
/-! DEFINITION. The one-bit values the rules compute (R36): path enables, votes, the envelope gate, the noise bit. -/

namespace Sys2Proof.Machine

open Config

/-- The tone path runs: `mixMask[0] = 0` (R101, R156). -/
def toneEnabled (g : Segment) : Bool := !g.mixMask[0]

/-- The noise path runs: `mixMask[1] = 0` (R101, R157). -/
def noiseEnabled (g : Segment) : Bool := !g.mixMask[1]

/-- The envelope gate of the noise path: no envelope, or elapsed time within it, `<=` (R157). -/
def envelopeGate (g : Segment) (elapsed : Nat) : Bool := g.envDuration == 0 || decide (elapsed ≤ g.envDuration)

/-- The noise bit of one PRNG byte: 0 below 128, else the envelope gate (R157). -/
def noiseBitOf (g : Segment) (elapsed : Nat) (r : Byte) : Bool := decide (128 ≤ r.toNat) && envelopeGate g elapsed

/-- The tone's comparison: below the half-period, or past the period (R156). Between the two it is low. -/
def toneHigh (half period phase : Nat) : Bool := decide (phase < half) || decide (period < phase)

/-- A voice's comparison: high below the half-period and on the wrap tick, gated by `toneEnabled` (R134). -/
def voiceHigh (half full phase : Nat) (en : Bool) : Bool := toneHigh half full phase && en

/-- A segment of either kind is past its end: the strict tests of R159 and R160. -/
def segmentOver (g : Segment) (elapsed : Nat) : Bool :=
  if g.envDuration = 0 then decide (g.duration < elapsed) else decide (g.envDuration < elapsed)

end Sys2Proof.Machine
end

