-- ==== Sys2Proof/Machine/State.lean ====
section
/-! DEFINITION. The state record (10_state.md R20 to R41), what the model holds beside it, the reasons to stop, and
the state after reset (R40). -/

namespace Sys2Proof.Machine

open Config

/-- One voice of the pool (R21). The fields of a voice with `bound = false` keep what release left in them (R24). -/
structure Voice where
  half : Nat
  full : Nat
  phase : Nat
  en : Bool
  bound : Bool
  ch : Channel
  note : Byte
  deriving DecidableEq, Repr

/-- `stagePhase` of the NoiseDrum (R33, R152). -/
inductive Stage where
  | uninitialized
  | running
  | finished
  deriving DecidableEq, Repr

/-- The NoiseDrum record `D` (R30). -/
structure Drum where
  prog : Option ProgramId
  seg : Nat
  stage : Stage
  tonePeriod : Nat
  toneHalf : Nat
  noisePeriod : Nat
  tonePhase : Nat
  toneSweepAcc : Nat
  noisePhase : Nat
  noiseSweepAcc : Nat
  envElapsed : Nat
  noiseBit : Bool
  chvol : Volume
  deriving DecidableEq, Repr

/-- The dispatcher's receive latch `RX` (R29). -/
inductive Rx where
  | idle
  | haveStatus (s : Byte)
  | haveData1 (s d1 : Byte)
  deriving DecidableEq, Repr

/-- What the environment can make happen next (R14). `commit` is the schedule's word, at granularity `record` only,
for the event context's next record commit (R76, log 5). -/
inductive Event where
  | reset
  | byte (b : Byte)
  | tick
  | seedLoad (s : Seed)
  | commit
  deriving DecidableEq, Repr

/-- One commit of the event context to one shared record (R76). -/
inductive Commit where
  /-- free voice `i` (R132) -/
  | freeVoice (i : VoiceIx)
  /-- `CV[c] <- v` (R189) -/
  | channelVolume (c : Channel) (v : Volume)
  /-- `D.chvol <- v` (R189) -/
  | drumVolume (v : Volume)
  deriving DecidableEq, Repr

/-- The machine: the record of R20, and below it the model's own fields. -/
structure State where
  /-- `V[0..19]` (R21) -/
  pool : Vector Voice 20
  /-- `CV[0..15]` (R26) -/
  cv : Vector Volume 16
  /-- `D` (R30) -/
  drum : Drum
  /-- `SEED` (R27) -/
  seed : Seed
  /-- `OUT_LEVEL` (R28) -/
  outLevel : Byte
  /-- `RX` (R29) -/
  rx : Rx
  /-- the environment's coming events, oldest first (R18, R82; log 4) -/
  inbox : List Event
  /-- the record commits of the last message still to come, oldest first (R76; log 5) -/
  pending : List Commit
  /-- the read-only tables and the build-time parameters (R9, R10, R60); no step writes it (log 2) -/
  build : Build
  deriving DecidableEq, Repr

/-- Why a step stops without a next state. The hardware itself raises nothing (R230): both arise only in states no
run from reset reaches. -/
inductive Fault where
  /-- a byte arrived while `RX` held a status that R29 forbids; raised by `runByte`; safe (log 10) -/
  | latchNotRouted
  /-- a tick while the NoiseDrum was at no segment of any program, which R35 excludes; raised by `tick`; safe
  (log 11) -/
  | sequencerOutOfRange
  deriving DecidableEq, Repr

/-- Inputs to which the spec gives no behaviour (R13 `REFUSE`). -/
inductive Refusal where
  /-- an instruction without a meaning, refused by its arm of `exec`; no arm does; safe -/
  | notModelled (mnemonic : String)
  /-- a Note On for an unbound pair with note above 127; raised by `execNoteOn`; safe (R186, U1; log 8) -/
  | noteAbove127
  /-- a volume controller with value above 127; raised by `execCcVolume`; safe (R189, U2; log 9) -/
  | volumeAbove127
  deriving DecidableEq, Repr

/-- A voice after reset: free, its periods `PERIOD_NEVER` = 2^CW − 1 (R24, R40). -/
def Voice.reset (b : Build) : Voice :=
  { half := 2 ^ b.cw - 1, full := 2 ^ b.cw - 1, phase := 0, en := false, bound := false, ch := 0, note := 0 }

/-- The NoiseDrum after reset (R40). The values of `tonePhase`, `noisePhase` and `noiseBit` are the spec's own
decision D10 (log 6). -/
def Drum.reset (chvol : Volume) : Drum :=
  { prog := none, seg := 0, stage := .finished, tonePeriod := 0, toneHalf := 0, noisePeriod := 0, tonePhase := 0,
    toneSweepAcc := 0, noisePhase := 0, noiseSweepAcc := 0, envElapsed := 0, noiseBit := false, chvol := chvol }

/-- Every register of a build `b` at its value of R40, with nothing scheduled and nothing pending. -/
def State.resetOf (b : Build) : State :=
  { pool := Vector.replicate 20 (Voice.reset b), cv := Vector.replicate 16 b.chvolReset, drum := Drum.reset b.chvolReset,
    seed := b.seedReset, outLevel := 0, rx := .idle, inbox := [], pending := [], build := b }

/-- The machine right after reset (R40, R260), on the build the spec leaves open. -/
def State.reset : State := State.resetOf Config.build

end Sys2Proof.Machine
end

