-- ==== Sys2Proof/Machine/Ops.lean ====
section
/-! DEFINITION. The named operations on the registers: the PRNG (40_prng.md), the voice pool as the event context
sees it (41_voice_pool.md R130 to R133), the trigger (R150), the volumes, record commits (R76), and reset (R260).
The hardware takes no exception and returns from none (R230, R234, R235), so no operation for that stands here. -/

namespace Sys2Proof.Machine

open Config

/-- `PERIOD_NEVER` = 2^CW − 1 (R24). -/
def periodNever (b : Build) : Nat := 2 ^ b.cw - 1

/-- The recurrence of `prng_next` (R120). -/
def prngStep (seed : Seed) : Seed := seed * 9 + 0x3711

/-- The byte `prng_next` returns: the high 8 bits of the new seed (R120). -/
def prngByte (newSeed : Seed) : Byte := newSeed.extractLsb' 8 8

/-- `prng_next()`: the new seed and the byte (R120). -/
def prngNext (seed : Seed) : Seed × Byte := (prngStep seed, prngByte (prngStep seed))

/-- `SEED <- v` (R123). -/
def State.seedLoad (s : State) (v : Seed) : State := { s with seed := v }

/-- Voice `i <- v`. -/
def State.setVoice (s : State) (i : VoiceIx) (v : Voice) : State := { s with pool := s.pool.set i v }

/-- The slots whose voice meets `p`, in ascending index order. -/
def State.slots (s : State) (p : Voice → Bool) : List VoiceIx := (List.finRange 20).filter fun i => p s.pool[i]

/-- The voice is bound to the pair (ch, note) (R130, R132). -/
def Voice.holds (v : Voice) (ch : Channel) (note : Byte) : Bool := v.bound && v.ch == ch && v.note == note

/-- The voice is bound on the channel (R133). -/
def Voice.onChannel (v : Voice) (ch : Channel) : Bool := v.bound && v.ch == ch

/-- `find(ch, note)` (R130). -/
def State.find (s : State) (ch : Channel) (note : Byte) : Bool := (List.finRange 20).any fun i => s.pool[i].holds ch note

/-- The first unbound slot in ascending index order (R131). -/
def State.firstFree (s : State) : Option VoiceIx := (List.finRange 20).find? fun i => !s.pool[i].bound

/-- A voice newly bound to (ch, note) (R131). -/
def Voice.allocated (b : Build) (ch : Channel) (note : BitVec 7) : Voice :=
  { half := noteHalf b note, full := 2 * noteHalf b note, phase := 0, en := true, bound := true, ch := ch,
    note := note.setWidth 8 }

/-- `allocate(ch, note)`: the state after it, and the slot or none (R131). -/
def State.allocate (s : State) (ch : Channel) (note : BitVec 7) : State × Option VoiceIx :=
  match s.firstFree with
  | some i => (s.setVoice i (Voice.allocated s.build ch note), some i)
  | none => (s, none)

/-- A voice released: `phase`, `ch` and `note` stay (R24, R132). -/
def Voice.freed (v : Voice) (b : Build) : Voice :=
  { v with bound := false, en := false, half := periodNever b, full := periodNever b }

/-- Free voice `i` (R132). -/
def State.freeVoice (s : State) (i : VoiceIx) : State := s.setVoice i (s.pool[i].freed s.build)

/-- `CV[c] <- v` (R189). -/
def State.setChannelVolume (s : State) (c : Channel) (v : Volume) : State :=
  { s with cv := s.cv.set c.toNat v c.isLt }

/-- `D.chvol <- v` (R189). -/
def State.setDrumVolume (s : State) (v : Volume) : State := { s with drum := { s.drum with chvol := v } }

/-- `trigger(id)` (R150). -/
def State.trigger (s : State) (id : ProgramId) : State :=
  { s with drum := { s.drum with prog := some id, seg := 0, stage := .uninitialized } }

/-- One record commit of the event context (R76). -/
def State.applyCommit (s : State) : Commit → State
  | .freeVoice i => s.freeVoice i
  | .channelVolume c v => s.setChannelVolume c v
  | .drumVolume v => s.setDrumVolume v

/-- The event context makes its next record commit, if one is still to come (R76). -/
def State.commitNext (s : State) : State :=
  match s.pending with
  | [] => s
  | c :: cs => State.applyCommit { s with pending := cs } c

/-- The event context makes all the record commits still to come, in order. -/
def State.drain (s : State) : State := s.pending.foldl State.applyCommit { s with pending := [] }

/-- The commits of one message: all in this transition, or, at granularity `record`, the first of them now and each
other one in a transition of its own (R76). -/
def State.issue (s : State) (cs : List Commit) : State :=
  match s.build.granularity with
  | .message => State.drain { s with pending := s.pending ++ cs }
  | .record => State.commitNext { s with pending := s.pending ++ cs }

/-- `release(ch, note)`: free every voice bound to the pair (R132). -/
def State.release (s : State) (ch : Channel) (note : Byte) : State :=
  s.issue ((s.slots fun v => v.holds ch note).map .freeVoice)

/-- `release_channel(ch)`: free every voice bound on the channel (R133). -/
def State.releaseChannel (s : State) (ch : Channel) : State :=
  s.issue ((s.slots fun v => v.onChannel ch).map .freeVoice)

/-- The volume write of a Control Change: `CV[ch]`, and `D.chvol` on the drum channel (R189). -/
def State.writeVolume (s : State) (ch : Channel) (v : Volume) : State :=
  s.issue (.channelVolume ch v :: if ch = drumChannel then [.drumVolume v] else [])

/-- The `Reset` event: every register at its value of R40; the tables and the environment's schedule are not
registers (R260; log 16). -/
def State.powerUp (s : State) : State := { State.resetOf s.build with inbox := s.inbox }

end Sys2Proof.Machine
end

