-- ==== Sys2Proof/Machine/NoiseDrum.lean ====
section
/-! DEFINITION. The NoiseDrum engine's tick: 42_noise_drum.md R151 to R160. -/

namespace Sys2Proof.Machine

open Config

/-- The number of segments of a program (R64). -/
def programLength (p : Program) : Nat := p.rest.length + 1

/-- `segment(p, k)` (R64). -/
def segmentAt (p : Program) (k : Nat) : Option Segment := (p.first :: p.rest)[k]?

/-- The active program and its current segment `g`, where there is one (R35, R153). -/
def Drum.current (b : Build) (d : Drum) : Option (Program × Segment) :=
  match d.prog with
  | none => none
  | some id =>
    match segmentAt b.program[id] d.seg with
    | none => none
    | some g => some (b.program[id], g)

/-- `advance_segment()` (R151). -/
def Drum.advanceSegment (p : Program) (d : Drum) : Drum :=
  if d.seg + 1 < programLength p then { d with seg := d.seg + 1, stage := .uninitialized } else { d with stage := .finished }

/-- Step 2: prime a segment that is not primed (R154). -/
def Drum.prime (g : Segment) (d : Drum) : Drum :=
  if d.stage = .uninitialized then
    { d with tonePeriod := g.tonePeriod, toneHalf := g.tonePeriod >>> 1, noisePeriod := g.noisePeriod, envElapsed := 0,
             toneSweepAcc := 0, noiseSweepAcc := 0, stage := .running }
  else d

/-- Step 3: one tick's time quantum more (R155). -/
def Drum.elapse (b : Build) (d : Drum) : Drum := { d with envElapsed := addMod b d.envElapsed b.drumTimeInc }

/-- Step 4 (a), (b): the tone sweep (R156). -/
def Drum.toneSweep (b : Build) (g : Segment) (d : Drum) : Drum :=
  let acc := addMod b d.toneSweepAcc b.drumTimeInc
  if b.frameTime ≤ acc ∧ g.toneSweepStep ≠ 0 then
    { d with tonePeriod := addMod b d.tonePeriod g.toneSweepStep, toneHalf := addMod b d.tonePeriod g.toneSweepStep >>> 1,
             toneSweepAcc := acc - b.frameTime }
  else { d with toneSweepAcc := acc }

/-- Step 4 (c), (d): the tone phase counter and its wrap (R156). -/
def Drum.tonePhaseStep (b : Build) (d : Drum) : Drum × Bool :=
  let p := addMod b d.tonePhase b.drumPhaseInc
  let q := if p < d.toneHalf then p else if d.tonePeriod < p then p - d.tonePeriod else p
  ({ d with tonePhase := q }, toneHigh d.toneHalf d.tonePeriod p)

/-- Step 4, the tone path: the record after it and its vote, 1 when the path is disabled (R156, R158). -/
def Drum.tonePath (b : Build) (g : Segment) (d : Drum) : Drum × Bool :=
  if toneEnabled g then (d.toneSweep b g).tonePhaseStep b else (d, true)

/-- Step 5 (a), (b): the noise sweep (R157). -/
def Drum.noiseSweep (b : Build) (g : Segment) (d : Drum) : Drum :=
  let acc := addMod b d.noiseSweepAcc b.drumTimeInc
  if g.noiseSweepPeriod ≠ 0 ∧ g.noiseSweepPeriod < acc then
    { d with noisePeriod := addMod b d.noisePeriod g.noiseSweepStep, noiseSweepAcc := acc - g.noiseSweepPeriod }
  else { d with noiseSweepAcc := acc }

/-- Step 5 (c), (d): the noise phase counter, and the draw when it reaches the noise period (R157, R124). -/
def Drum.noiseSample (b : Build) (g : Segment) (d : Drum) (seed : Seed) : Drum × Seed :=
  let p := addMod b d.noisePhase b.drumPhaseInc
  if d.noisePeriod ≤ p then
    ({ d with noiseBit := noiseBitOf g d.envElapsed (prngNext seed).2, noisePhase := p - d.noisePeriod }, (prngNext seed).1)
  else ({ d with noisePhase := p }, seed)

/-- What a NoiseDrum tick leaves: the record, the seed and the amplitude. -/
structure DrumOut where
  drum : Drum
  seed : Seed
  amp : Byte
  deriving DecidableEq, Repr

/-- Step 5, the noise path: nothing when disabled (R157). -/
def Drum.noisePath (b : Build) (g : Segment) (d : Drum) (seed : Seed) : Drum × Seed :=
  if noiseEnabled g then (d.noiseSweep b g).noiseSample b g seed else (d, seed)

/-- The noise path's vote: the held bit, 1 when the path is disabled (R157, R158). -/
def noiseVote (g : Segment) (d : Drum) : Bool := !noiseEnabled g || d.noiseBit

/-- The amplitude of a tick whose vote is 1 (R159, R160). -/
def Drum.envelopeAmp (b : Build) (g : Segment) (d : Drum) : Byte :=
  if g.envDuration = 0 then drumAmplitude b (sustainedIndex g)
  else if g.envDuration < d.envElapsed then 0
  else drumAmplitude b (decayedIndex g d.envElapsed d.chvol)

/-- Step 6: a vote of 0 is silent and does not advance; a vote of 1 sounds the envelope, and advances past its end
(R158, R159, R160). -/
def Drum.combine (b : Build) (p : Program) (g : Segment) (d : Drum) : Drum × Byte :=
  if noiseVote g d then (if segmentOver g d.envElapsed then d.advanceSegment p else d, d.envelopeAmp b g) else (d, 0)

/-- Steps 2 to 6 on the current segment (R153). A low tone ends the tick before the noise path (R156). -/
def Drum.runSegment (b : Build) (p : Program) (g : Segment) (d : Drum) (seed : Seed) : DrumOut :=
  let t := ((d.prime g).elapse b).tonePath b g
  if t.2 then
    let n := t.1.noisePath b g seed
    let c := n.1.combine b p g
    { drum := c.1, seed := n.2, amp := c.2 }
  else { drum := t.1, seed := seed, amp := 0 }

/-- `drum_tick()` (R153). None where the record is at no segment of any program, which R35 excludes (log 11). -/
def drumTick (b : Build) (d : Drum) (seed : Seed) : Option DrumOut :=
  if d.stage = .finished then some { drum := d, seed := seed, amp := 0 }
  else
    match d.current b with
    | none => none
    | some (p, g) => some (d.runSegment b p g seed)

end Sys2Proof.Machine
end

