-- ==== Sys2Proof/Machine/Voices.lean ====
section
/-! DEFINITION. The voice pool as the tick context sees it: the phase accumulator step (41_voice_pool.md R134, R135). -/

namespace Sys2Proof.Machine

open Config

/-- The phase after the advance, before the comparison (R134). -/
def Voice.advanced (v : Voice) (b : Build) : Nat := addMod b v.phase b.voiceTickInc

/-- `voice_tick` on one voice: the voice after it, and the output bit (R134). A free voice is not advanced. -/
def Voice.tick (v : Voice) (b : Build) : Voice × Bool :=
  if v.bound then
    let p := v.advanced b
    let q := if p < v.half then p else if v.full < p then p - v.full else p
    ({ v with phase := q }, voiceHigh v.half v.full p v.en)
  else (v, false)

/-- The pool after `tick_all()` (R135). -/
def tickPool (pool : Vector Voice 20) (b : Build) : Vector Voice 20 := Vector.ofFn fun i => (pool[i].tick b).1

/-- The 20 bits `tick_all()` returns (R135). -/
def poolBits (pool : Vector Voice 20) (b : Build) : Vector Bool 20 := Vector.ofFn fun i => (pool[i].tick b).2

end Sys2Proof.Machine
end

