-- ==== Sys2Proof/Machine/Mixer.lean ====
section
/-! DEFINITION. The sample mixer, the `Tick` event (44_mixer.md R220 to R223). -/

namespace Sys2Proof.Machine

open Config

/-- What voice `i` adds to the sum on this tick (R221). -/
def State.contribution (s : State) (i : VoiceIx) : Nat :=
  if s.pool[i].bound && (poolBits s.pool s.build)[i] then
    voiceAmplitude s.build (s.cv[s.pool[i].ch.toNat]'(s.pool[i].ch.isLt))
  else 0

/-- The sum of the voices (R221). -/
def State.voiceTotal (s : State) : Nat := ((List.finRange 20).map s.contribution).sum

/-- Divide, then clamp (R222). -/
def mixLevel (total : Nat) : Byte := BitVec.ofNat 8 (min (total / mixDiv) outMax)

/-- The `Tick` event (R220). -/
def State.tick (s : State) : Host.Outcome State Fault Refusal :=
  match drumTick s.build s.drum s.seed with
  | none => .fault .sequencerOutOfRange
  | some o =>
    .next { s with pool := tickPool s.pool s.build, drum := o.drum, seed := o.seed,
                   outLevel := mixLevel (s.voiceTotal + o.amp.toNat) }

end Sys2Proof.Machine
end

