-- ==== Sys2Proof/Syntax.lean ====
section
/-! DEFINITION. The messages of the core, one constructor per row of spec/opcode_table.json (R105). -/

namespace Sys2Proof

/-- A message, or a byte skipped in `Idle`. Operands as R96 takes them from the bytes. -/
inductive Instr where
  /-- NOTE_OFF, 0x8_ (R92, R185). -/
  | noteOff (ch : Channel) (note velocity : Byte)
  /-- NOTE_ON_DRUM, 0x99, any velocity (R93, R188). -/
  | noteOnDrum (note velocity : Byte)
  /-- NOTE_ON, 0x9_ with channel other than 9 and velocity above 0 (R93, R186). -/
  | noteOn (ch : Channel) (note velocity : Byte)
  /-- NOTE_ON_VEL0, 0x9_ with channel other than 9 and velocity 0 (R93, R187). -/
  | noteOnVel0 (ch : Channel) (note : Byte)
  /-- CC_VOLUME, 0xB_ with controller 7 or 11 (R94, R97, R189). -/
  | ccVolume (ch : Channel) (controller value : Byte)
  /-- CC_CHANNEL_RESET, 0xB_ with controller 0, 120, 121 or 123 to 127 (R94, R97, R190). -/
  | ccChannelReset (ch : Channel) (controller value : Byte)
  /-- CC_NOP, 0xB_ with any other controller (R94, R97, R191). -/
  | ccNop (ch : Channel) (controller value : Byte)
  /-- PC, 0xC_, one data byte (R95, R192). -/
  | pc (ch : Channel) (program : Byte)
  /-- SKIP_STATUS, 0xA_ met in `Idle` (R193). -/
  | skipStatusA (low : BitVec 4)
  /-- SKIP_STATUS, 0xD_ met in `Idle` (R193). -/
  | skipStatusD (low : BitVec 4)
  /-- SKIP_STATUS, 0xE_ met in `Idle` (R193). -/
  | skipStatusE (low : BitVec 4)
  /-- SKIP_STATUS, 0xF_ met in `Idle` (R193). -/
  | skipStatusF (low : BitVec 4)
  /-- SKIP_DATA, a byte below 0x80 met in `Idle` (R194). -/
  | skipData (data : BitVec 7)
  deriving DecidableEq, Repr

end Sys2Proof
end

