-- ==== Sys2Proof/WellFormed.lean ====
section
/-! DEFINITION. Which terms of `Instr` are messages: the `condition` column of the opcode table (R93, R97, R105). -/

namespace Sys2Proof

open Machine

/-- The condition of the instruction's row. A row without a condition admits every operand. -/
def Instr.wellFormed : Instr → Bool
  | .noteOff _ _ _ => true
  | .noteOnDrum _ _ => true
  | .noteOn ch _ velocity => ch != Config.drumChannel && velocity != 0
  | .noteOnVel0 ch _ => ch != Config.drumChannel
  | .ccVolume _ controller _ => isVolumeController controller
  | .ccChannelReset _ controller _ => isResetController controller
  | .ccNop _ controller _ => !isVolumeController controller && !isResetController controller
  | .pc _ _ => true
  | .skipStatusA _ => true
  | .skipStatusD _ => true
  | .skipStatusE _ => true
  | .skipStatusF _ => true
  | .skipData _ => true

end Sys2Proof
end

