-- ==== Sys2Proof/Decode.lean ====
section
/-! DEFINITION. The decoder of the byte stream (R90 to R99, R105) and the encoder. -/

namespace Sys2Proof

open Machine

/-- Why no message can be read: only for want of bytes, since every byte value has a meaning (R98). -/
inductive DecodeReject where
  /-- there is no byte to read -/
  | noByte
  /-- the message's data bytes have not all arrived -/
  | truncated
  deriving DecidableEq, Repr

/-- A message and the bytes after it, or the reason there is none. -/
inductive Decoded where
  | instr (i : Instr) (rest : List Byte)
  | reject (why : DecodeReject)
  deriving DecidableEq, Repr

/-- A three-byte message with status 0x8_ (R92), 0x9_ (R93, tests in the order of R198) or 0xB_ (R94, R97). -/
def decodeThree (status d1 d2 : Byte) : Instr :=
  if statusOp status = 0x8 then .noteOff (statusChannel status) d1 d2
  else if statusOp status = 0x9 then
    if statusChannel status = Config.drumChannel then .noteOnDrum d1 d2
    else if d2 = 0 then .noteOnVel0 (statusChannel status) d1
    else .noteOn (statusChannel status) d1 d2
  else if isVolumeController d1 then .ccVolume (statusChannel status) d1 d2
  else if isResetController d1 then .ccChannelReset (statusChannel status) d1 d2
  else .ccNop (statusChannel status) d1 d2

/-- A byte skipped in `Idle`: below 0x80 (R194), or an unrouted status (R193). -/
def decodeOne (b : Byte) : Instr :=
  if b.msb = false then .skipData (b.extractLsb' 0 7)
  else if statusOp b = 0xA then .skipStatusA (statusChannel b)
  else if statusOp b = 0xD then .skipStatusD (statusChannel b)
  else if statusOp b = 0xE then .skipStatusE (statusChannel b)
  else .skipStatusF (statusChannel b)

/-- The first message of a byte stream met in `Idle` (R105). -/
def decode : List Byte → Decoded
  | [] => .reject .noByte
  | b :: rest =>
    if messageLength b = 3 then
      match rest with
      | d1 :: d2 :: tail => .instr (decodeThree b d1 d2) tail
      | _ => .reject .truncated
    else if messageLength b = 2 then
      match rest with
      | d1 :: tail => .instr (.pc (statusChannel b) d1) tail
      | [] => .reject .truncated
    else .instr (decodeOne b) rest

/-- The bytes of a message, in stream order (R67, R91 to R95). -/
def encode : Instr → List Byte
  | .noteOff ch note velocity => [statusByte 0x8 ch, note, velocity]
  | .noteOnDrum note velocity => [statusByte 0x9 Config.drumChannel, note, velocity]
  | .noteOn ch note velocity => [statusByte 0x9 ch, note, velocity]
  | .noteOnVel0 ch note => [statusByte 0x9 ch, note, 0]
  | .ccVolume ch controller value => [statusByte 0xB ch, controller, value]
  | .ccChannelReset ch controller value => [statusByte 0xB ch, controller, value]
  | .ccNop ch controller value => [statusByte 0xB ch, controller, value]
  | .pc ch program => [statusByte 0xC ch, program]
  | .skipStatusA low => [statusByte 0xA low]
  | .skipStatusD low => [statusByte 0xD low]
  | .skipStatusE low => [statusByte 0xE low]
  | .skipStatusF low => [statusByte 0xF low]
  | .skipData data => [0#1 ++ data]

/-- The three bytes of an instruction numbered as the opcode table numbers them: byte k is bits 8k+7..8k of `w`, and
every bit from `nbits` on is 0. -/
def tableBytes (nbits w : Nat) : List Byte :=
  let v := w % 2 ^ nbits
  [BitVec.ofNat 8 v, BitVec.ofNat 8 (v / 2 ^ 8), BitVec.ofNat 8 (v / 2 ^ 16)]

/-- The instruction the decoder reads from a word of the opcode table. -/
def decodeTableWord (nbits w : Nat) : Option Instr :=
  match decode (tableBytes nbits w) with
  | .instr i _ => some i
  | .reject _ => none

end Sys2Proof
end

