-- ==== Sys2Proof/Machine/Controls.lean ====
section
/-! DEFINITION. Control Change and Program Change (43_midi_dispatcher.md R189 to R192). -/

namespace Sys2Proof.Machine

/-- CC_VOLUME (R189). Controllers 7 and 11 write the same register. -/
def execCcVolume (ch : Channel) (_controller value : Byte) (s : State) : Host.Outcome State Fault Refusal :=
  if 127 < value.toNat then .refused .volumeAbove127 else .next (s.writeVolume ch (volumeOf value))

/-- CC_CHANNEL_RESET (R190). -/
def execCcChannelReset (ch : Channel) (_controller _value : Byte) (s : State) : Host.Outcome State Fault Refusal :=
  .next (s.releaseChannel ch)

/-- CC_NOP (R191). -/
def execCcNop (_ch : Channel) (_controller _value : Byte) (s : State) : Host.Outcome State Fault Refusal := .next s

/-- PC (R192). The program number has no effect. -/
def execPc (ch : Channel) (_program : Byte) (s : State) : Host.Outcome State Fault Refusal := .next (s.releaseChannel ch)

end Sys2Proof.Machine
end

