-- ==== Sys2Proof/Machine/Notes.lean ====
section
/-! DEFINITION. Note Off and Note On (43_midi_dispatcher.md R185 to R188). -/

namespace Sys2Proof.Machine

/-- NOTE_OFF (R185). The velocity has no effect. -/
def execNoteOff (ch : Channel) (note _velocity : Byte) (s : State) : Host.Outcome State Fault Refusal :=
  .next (s.release ch note)

/-- NOTE_ON_DRUM (R188): trigger the program the note maps to, if any. -/
def execNoteOnDrum (note _velocity : Byte) (s : State) : Host.Outcome State Fault Refusal :=
  .next (match drumProgram s.build note with
    | none => s
    | some id => s.trigger id)

/-- NOTE_ON (R186): a duplicate is ignored, a note above 127 refused, else the first free slot is taken, if any. -/
def execNoteOn (ch : Channel) (note _velocity : Byte) (s : State) : Host.Outcome State Fault Refusal :=
  if s.find ch note then .next s
  else if 127 < note.toNat then .refused .noteAbove127
  else .next (s.allocate ch (note.setWidth 7)).1

/-- NOTE_ON_VEL0 (R187): as Note Off. -/
def execNoteOnVel0 (ch : Channel) (note : Byte) (s : State) : Host.Outcome State Fault Refusal :=
  .next (s.release ch note)

end Sys2Proof.Machine
end

