-- ==== Sys2Proof/Machine/Skips.lean ====
section
/-! DEFINITION. The bytes skipped in `Idle` (43_midi_dispatcher.md R193, R194). -/

namespace Sys2Proof.Machine

/-- SKIP_STATUS 0xA_ (R193). -/
def execSkipStatusA (_low : BitVec 4) (s : State) : Host.Outcome State Fault Refusal := .next s

/-- SKIP_STATUS 0xD_ (R193). -/
def execSkipStatusD (_low : BitVec 4) (s : State) : Host.Outcome State Fault Refusal := .next s

/-- SKIP_STATUS 0xE_ (R193). -/
def execSkipStatusE (_low : BitVec 4) (s : State) : Host.Outcome State Fault Refusal := .next s

/-- SKIP_STATUS 0xF_ (R193). -/
def execSkipStatusF (_low : BitVec 4) (s : State) : Host.Outcome State Fault Refusal := .next s

/-- SKIP_DATA (R194). -/
def execSkipData (_data : BitVec 7) (s : State) : Host.Outcome State Fault Refusal := .next s

end Sys2Proof.Machine
end

