-- ==== Sys2Proof/Machine/Dispatch.lean ====
section
/-! DEFINITION. One arm per message. -/

namespace Sys2Proof.Machine

/-- The action of a message, after `RX` went back to `Idle` (R182, R183). -/
def exec (i : Instr) (s : State) : Host.Outcome State Fault Refusal :=
  match i with
  | .noteOff ch note velocity => Sys2Proof.Machine.execNoteOff ch note velocity s
  | .noteOnDrum note velocity => Sys2Proof.Machine.execNoteOnDrum note velocity s
  | .noteOn ch note velocity => Sys2Proof.Machine.execNoteOn ch note velocity s
  | .noteOnVel0 ch note => Sys2Proof.Machine.execNoteOnVel0 ch note s
  | .ccVolume ch controller value => Sys2Proof.Machine.execCcVolume ch controller value s
  | .ccChannelReset ch controller value => Sys2Proof.Machine.execCcChannelReset ch controller value s
  | .ccNop ch controller value => Sys2Proof.Machine.execCcNop ch controller value s
  | .pc ch program => Sys2Proof.Machine.execPc ch program s
  | .skipStatusA low => Sys2Proof.Machine.execSkipStatusA low s
  | .skipStatusD low => Sys2Proof.Machine.execSkipStatusD low s
  | .skipStatusE low => Sys2Proof.Machine.execSkipStatusE low s
  | .skipStatusF low => Sys2Proof.Machine.execSkipStatusF low s
  | .skipData data => Sys2Proof.Machine.execSkipData data s

end Sys2Proof.Machine
end

