-- ==== Sys2Proof/Machine/Receive.lean ====
section
/-! DEFINITION. The receive state machine, the `Byte` event (43_midi_dispatcher.md R180 to R183), and how the bytes of
one message are laid out for it. -/

namespace Sys2Proof.Machine

/-- The bytes of a message the latch already holds (R29). -/
def Rx.bytes : Rx → List Byte
  | .idle => []
  | .haveStatus s => [s]
  | .haveData1 s d1 => [s, d1]

/-- What one byte does to the latch: it waits for more of the message, or the message is complete. -/
inductive Received where
  | wait (rx : Rx)
  | message (bytes : List Byte)
  deriving DecidableEq, Repr

/-- The byte is taken as a status byte in `Idle`, as data after that, whatever its value (R181, R182, R183, R195). -/
def Rx.receive (rx : Rx) (b : Byte) : Received :=
  match rx with
  | .idle => if 1 < messageLength b then .wait (.haveStatus b) else .message [b]
  | .haveStatus s => if statusOp s = 0xC then .message [s, b] else .wait (.haveData1 s b)
  | .haveData1 s d1 => .message [s, d1, b]

/-- Decode a complete message and do its action. A latch that R29 forbids gives bytes that are no one message. -/
def runMessage (bytes : List Byte) (s : State) : Host.Outcome State Fault Refusal :=
  match decode bytes with
  | .instr i [] => exec i s
  | .instr _ (_ :: _) => .fault .latchNotRouted
  | .reject _ => .fault .latchNotRouted

/-- The `Byte(b)` event: `RX` goes to `Idle` whatever the action of a complete message does (R183). -/
def State.runByte (s : State) (b : Byte) : Host.Outcome State Fault Refusal :=
  match s.rx.receive b with
  | .wait rx => .next { s with rx := rx }
  | .message bytes => runMessage bytes { s with rx := .idle }

/-- The latch that holds `front`, the bytes of a message before its last one. -/
def latchOf (front : List Byte) : Rx :=
  match front with
  | [] => .idle
  | [status] => .haveStatus status
  | status :: d1 :: _ => .haveData1 status d1

/-- Lay the bytes of one message out so that the next event completes it: all but the last in `RX`, the last at the
head of the inbox, no commit of an earlier message still to come. -/
def State.placeMessage (s : State) (bytes : List Byte) : State :=
  match bytes.getLast? with
  | none => s
  | some b => { s with rx := latchOf bytes.dropLast, inbox := .byte b :: s.inbox, pending := [] }

/-- The bytes of the message a word of the opcode table begins (R90). -/
def tableMessage (nbits w : Nat) : List Byte :=
  let bytes := tableBytes nbits w
  bytes.take (messageLength (bytes.headD 0))

end Sys2Proof.Machine
end

