-- ==== Sys2Proof/Machine/Events.lean ====
section
/-! DEFINITION. The events (00_scope.md R14): each one atomic transition (20_memory.md R75). -/

namespace Sys2Proof.Machine

/-- What the next event does. A byte waits in the inbox while commits of the message before it are still to come:
the event context makes the next of them instead (R76; log 5). -/
def State.runEvent (s : State) (e : Event) (rest : List Event) : Host.Outcome State Fault Refusal :=
  match e with
  | .reset => .next (State.powerUp { s with inbox := rest })
  | .seedLoad v => .next (State.seedLoad { s with inbox := rest } v)
  | .tick => State.tick { s with inbox := rest }
  | .commit => .next (State.commitNext { s with inbox := rest })
  | .byte b => if s.pending = [] then State.runByte { s with inbox := rest } b else .next s.commitNext

/-- With no event scheduled nothing changes (R14), but for a commit still to come (R76). -/
def State.runNext (s : State) : Host.Outcome State Fault Refusal :=
  match s.inbox with
  | [] => .next s.commitNext
  | e :: rest => s.runEvent e rest

end Sys2Proof.Machine
end

