-- ==== Sys2Proof/Machine/Step.lean ====
section
/-! DEFINITION. One step of the machine, and where a program's next instruction is placed. -/

namespace Sys2Proof.Machine

/-- One transition: the environment's next event (R14, R75, R82). -/
def step (s : State) : Host.Outcome State Fault Refusal := s.runNext

/-- `s` with the instruction of an opcode-table word as the message the next step completes (log 15). -/
def State.withFetchWord (s : State) (nbits w : Nat) : State := s.placeMessage (tableMessage nbits w)

end Sys2Proof.Machine
end

