-- ==== Sys2Proof/Safety.lean ====
section
/-! DEFINITION. What a good state is, and the words the statements use. -/

namespace Sys2Proof.Machine

open Config

/-- `RX` holds a status only of a kind that is routed, and of a three-byte kind once it holds a data byte (R29). -/
def Rx.Legal : Rx → Prop
  | .idle => True
  | .haveStatus s => statusOp s = 0x8 ∨ statusOp s = 0x9 ∨ statusOp s = 0xB ∨ statusOp s = 0xC
  | .haveData1 s _ => statusOp s = 0x8 ∨ statusOp s = 0x9 ∨ statusOp s = 0xB

/-- R22 (c) and (d), and R197: a bound voice sounds the note it is bound to, on a channel other than the drum's; a free
voice is disabled. The bound on the phase holds where `VOICE_TICK_INC <= full`. -/
structure Voice.Ok (b : Build) (v : Voice) : Prop where
  enabled : v.bound = true → v.en = true
  disabled : v.bound = false → v.en = false
  noteSeven : v.bound = true → v.note.toNat ≤ 127
  notDrum : v.bound = true → v.ch ≠ drumChannel
  half : v.bound = true → v.half = Machine.noteHalf b (v.note.setWidth 7)
  full : v.bound = true → v.full = 2 * v.half
  phase : v.bound = true → b.voiceTickInc ≤ v.full → v.phase ≤ v.full

/-- The counts of a voice are of `CW` bits (R21, R39). -/
def Voice.Fits (cw : Nat) (v : Voice) : Prop := v.half < 2 ^ cw ∧ v.full < 2 ^ cw ∧ v.phase < 2 ^ cw

/-- R22 (b): at most one voice holds a pair. -/
def OneVoicePerPair (pool : Vector Voice 20) : Prop :=
  ∀ i j : VoiceIx, pool[i].bound = true → pool[j].bound = true → pool[i].ch = pool[j].ch → pool[i].note = pool[j].note →
    i = j

/-- R35. -/
structure Drum.Ok (b : Build) (d : Drum) : Prop where
  active : d.stage = .finished ∨ d.prog ≠ none
  inRange : ∀ id : ProgramId, d.prog = some id → d.seg < programLength b.program[id]
  halved : d.stage = .running → d.toneHalf = d.tonePeriod >>> 1

/-- The counts of the NoiseDrum are of `CW` bits (R30, R39). -/
def Drum.Fits (cw : Nat) (d : Drum) : Prop :=
  d.tonePeriod < 2 ^ cw ∧ d.toneHalf < 2 ^ cw ∧ d.noisePeriod < 2 ^ cw ∧ d.tonePhase < 2 ^ cw ∧ d.toneSweepAcc < 2 ^ cw ∧
    d.noisePhase < 2 ^ cw ∧ d.noiseSweepAcc < 2 ^ cw ∧ d.envElapsed < 2 ^ cw

/-- The invariants of R22, R29, R34, R35, R39 and R197, and of the model's `pending` (log 5). `D.chvol = CV[9]` is said of the
state in which the commits still to come are made: between the two commits of one volume message at granularity
`record` the registers differ (R76). At granularity `message` none is ever to come. -/
structure State.Inv (s : State) : Prop where
  latch : s.rx.Legal
  voices : ∀ i : VoiceIx, s.pool[i].Ok s.build
  oneVoice : OneVoicePerPair s.pool
  drum : s.drum.Ok s.build
  drumVolume : s.drain.drum.chvol = s.drain.cv[9]
  whole : s.build.granularity = .message → s.pending = []
  widths : s.build.Fits → (∀ i : VoiceIx, s.pool[i].Fits s.build.cw) ∧ s.drum.Fits s.build.cw

/-- `w` is `v` released: free, disabled, both periods 2^CW − 1, and the rest as it was (R24, R132). -/
def Voice.ReleasedTo (b : Build) (v w : Voice) : Prop :=
  w.bound = false ∧ w.en = false ∧ w.half = 2 ^ b.cw - 1 ∧ w.full = 2 ^ b.cw - 1 ∧ w.phase = v.phase ∧
    w.ch = v.ch ∧ w.note = v.note

/-- The voices a releasing message frees: those bound to its pair (R185, R187), or on its channel (R190, R192). -/
def Voice.freedBy (v : Voice) : Instr → Bool
  | .noteOff ch note _ => v.bound && v.ch == ch && v.note == note
  | .noteOnDrum _ _ => false
  | .noteOn _ _ _ => false
  | .noteOnVel0 ch note => v.bound && v.ch == ch && v.note == note
  | .ccVolume _ _ _ => false
  | .ccChannelReset ch _ _ => v.bound && v.ch == ch
  | .ccNop _ _ _ => false
  | .pc ch _ => v.bound && v.ch == ch
  | .skipStatusA _ => false
  | .skipStatusD _ => false
  | .skipStatusE _ => false
  | .skipStatusF _ => false
  | .skipData _ => false

/-- The states agree in everything but the voice pool. -/
def State.SameButPool (s t : State) : Prop := { t with pool := s.pool } = s

/-- The states agree in everything but the channel volumes and `D.chvol`. -/
def State.SameButVolumes (s t : State) : Prop :=
  { t with cv := s.cv, drum := { t.drum with chvol := s.drum.chvol } } = s

/-- The state with these events to come. -/
def State.scheduled (s : State) (events : List Event) : State := { s with inbox := events }

/-- At granularity `message` the whole action of a message is in the one transition (R76). -/
def State.Whole (s t : State) : Prop := s.build.granularity = .message → t.pending = []

/-- The states agree in the NoiseDrum's sequencer position (R33). -/
def Drum.SamePosition (d e : Drum) : Prop := e.prog = d.prog ∧ e.seg = d.seg ∧ e.stage = d.stage

/-- `advance_segment` on program `p` leads from the position of `d` to that of `e` (R151). -/
def Drum.AdvancesTo (p : Program) (d e : Drum) : Prop :=
  e.prog = d.prog ∧
    if d.seg + 1 < p.rest.length + 1 then e.seg = d.seg + 1 ∧ e.stage = .uninitialized
    else e.seg = d.seg ∧ e.stage = .finished

/-- The tone's vote on a tick that begins with phase counter `phase` and leaves the record `e`: 1 when the tone path is
disabled; else below the half-period or past the period (R156, R158). -/
def toneVote (b : Build) (g : Segment) (phase : Nat) (e : Drum) : Prop :=
  g.mixMask[0] = false →
    (phase + b.drumPhaseInc) % 2 ^ b.cw < e.toneHalf ∨ e.tonePeriod < (phase + b.drumPhaseInc) % 2 ^ b.cw

/-- The noise's vote on a tick that leaves the record `e`: 1 when the noise path is disabled, else the held bit (R157,
R158). -/
def noiseVoteOf (g : Segment) (e : Drum) : Prop := g.mixMask[1] = false → e.noiseBit = true

/-- Note Ons of velocity 1 one after another, each for a pair. None if one does not answer a next state. -/
def playNotes (s : State) : List (Channel × BitVec 7) → Option State
  | [] => some s
  | (ch, note) :: more =>
    match exec (.noteOn ch (note.setWidth 8) 1) s with
    | .next t => playNotes t more
    | .fault _ => none
    | .refused _ => none

/-- The voice after `k` ticks. -/
def Voice.ticked (v : Voice) (b : Build) : Nat → Voice
  | 0 => v
  | k + 1 => ((v.ticked b k).tick b).1

end Sys2Proof.Machine
end

