-- ==== Sys2Proof/Certificates/Slice0/Obligations.lean ====
section
/-! DEFINITION. The statements for the provers, from the numbered rules of spec/. -/

open Sys2Proof Sys2Proof.Machine Sys2Proof.Config

/-! ## Encoding -/

/-- R90 to R97, R105: no operand bit of any message is dropped. -/
def Obligations.DecodeOfEncode : Prop :=
  ∀ (i : Instr) (rest : List Byte), i.wellFormed = true → decode (encode i ++ rest) = .instr i rest

/-- R98, R105: a byte string is read as a well-formed message, and only as the one whose encoding it is. -/
def Obligations.EncodeOfDecode : Prop :=
  ∀ (bytes : List Byte) (i : Instr) (rest : List Byte), decode bytes = .instr i rest →
    i.wellFormed = true ∧ encode i ++ rest = bytes

/-- R99: how many bytes a message takes depends on the high nibble of its first byte alone, whatever the data bytes. -/
def Obligations.LengthFromStatusNibble : Prop :=
  ∀ (b d1 d2 : Byte) (rest : List Byte), ∃ i : Instr, decode (b :: d1 :: d2 :: rest) = .instr i
    (if b.toNat / 16 = 0x8 ∨ b.toNat / 16 = 0x9 ∨ b.toNat / 16 = 0xB then rest
     else if b.toNat / 16 = 0xC then d2 :: rest
     else d1 :: d2 :: rest)

/-- The example bytes of R185 to R194 decode to the messages they stand for. -/
def Obligations.ExampleWordsDecode : Prop :=
  decode [0x80, 0x3C, 0x00] = .instr (.noteOff 0 60 0) [] ∧ decode [0x99, 0x24, 0x7F] = .instr (.noteOnDrum 36 127) [] ∧
    decode [0x90, 0x3C, 0x64] = .instr (.noteOn 0 60 100) [] ∧ decode [0x90, 0x3C, 0x00] = .instr (.noteOnVel0 0 60) [] ∧
    decode [0xB0, 0x07, 0x64] = .instr (.ccVolume 0 7 100) [] ∧
    decode [0xB0, 0x7B, 0x00] = .instr (.ccChannelReset 0 123 0) [] ∧
    decode [0xB0, 0x40, 0x7F] = .instr (.ccNop 0 64 127) [] ∧ decode [0xC0, 0x05] = .instr (.pc 0 5) [] ∧
    decode [0xE0] = .instr (.skipStatusE 0) [] ∧ decode [0x3C] = .instr (.skipData 60) []

/-! ## The step and the receive state machine -/

/-- R181 to R183: when the bytes in the latch and the next byte are a message, the step is that message's action, with
`RX` back at `Idle` and the byte taken from the stream. -/
def Obligations.StepRunsDecodedMessage : Prop :=
  ∀ (s : State) (b : Byte) (rest : List Event) (i : Instr), s.pending = [] → s.inbox = .byte b :: rest →
    decode (s.rx.bytes ++ [b]) = .instr i [] → step s = exec i { s with inbox := rest, rx := .idle }

/-- R181, R193, R194: a byte met in `Idle` is latched if it is a routed status and has no effect otherwise. -/
def Obligations.ByteInIdle : Prop :=
  ∀ (s : State) (b : Byte) (rest : List Event), s.pending = [] → s.inbox = .byte b :: rest → s.rx = .idle →
    step s = .next (if b.toNat / 16 = 0x8 ∨ b.toNat / 16 = 0x9 ∨ b.toNat / 16 = 0xB ∨ b.toNat / 16 = 0xC
      then { s with inbox := rest, rx := .haveStatus b } else { s with inbox := rest })

/-- R182: any byte after a status is its first data byte; a Program Change is complete with it. -/
def Obligations.ByteAfterStatus : Prop :=
  ∀ (s : State) (b status : Byte) (rest : List Event), s.pending = [] → s.inbox = .byte b :: rest →
    s.rx = .haveStatus status →
    step s = if status.toNat / 16 = 0xC then exec (.pc (status.extractLsb' 0 4) b) { s with inbox := rest, rx := .idle }
      else .next { s with inbox := rest, rx := .haveData1 status b }

/-- R183, with the case tests of R93, R97 and R198: any byte after the first data byte completes the message. -/
def Obligations.ByteAfterFirstData : Prop :=
  ∀ (s : State) (b status d1 : Byte) (rest : List Event), s.pending = [] → s.inbox = .byte b :: rest →
    s.rx = .haveData1 status d1 →
    let ch : Channel := status.extractLsb' 0 4
    let t : State := { s with inbox := rest, rx := .idle }
    (status.toNat / 16 = 0x8 → step s = exec (.noteOff ch d1 b) t) ∧
    (status.toNat / 16 = 0x9 → ch = 9 → step s = exec (.noteOnDrum d1 b) t) ∧
    (status.toNat / 16 = 0x9 → ch ≠ 9 → b = 0 → step s = exec (.noteOnVel0 ch d1) t) ∧
    (status.toNat / 16 = 0x9 → ch ≠ 9 → b ≠ 0 → step s = exec (.noteOn ch d1 b) t) ∧
    (status.toNat / 16 = 0xB → d1 ∈ ([7, 11] : List Byte) → step s = exec (.ccVolume ch d1 b) t) ∧
    (status.toNat / 16 = 0xB → d1 ∈ ([0, 120, 121, 123, 124, 125, 126, 127] : List Byte) →
      step s = exec (.ccChannelReset ch d1 b) t) ∧
    (status.toNat / 16 = 0xB → d1 ∉ ([0, 7, 11, 120, 121, 123, 124, 125, 126, 127] : List Byte) →
      step s = exec (.ccNop ch d1 b) t)

/-- R14: between events nothing changes. -/
def Obligations.NoEventNoChange : Prop :=
  ∀ s : State, s.inbox = [] → s.pending = [] → step s = .next s

/-! ## The messages -/

/-- R185, R187, R132: Note Off and velocity-0 Note On release the pair and change nothing else. -/
def Obligations.NoteOffReleasesPair : Prop :=
  ∀ (ch : Channel) (note velocity : Byte) (s : State) (i : Instr),
    i = .noteOff ch note velocity ∨ i = .noteOnVel0 ch note → s.pending = [] →
    ∃ t, exec i s = .next t ∧ s.Whole t ∧ s.SameButPool t.drain ∧
      ∀ k : VoiceIx, if s.pool[k].bound = true ∧ s.pool[k].ch = ch ∧ s.pool[k].note = note
        then s.pool[k].ReleasedTo s.build t.drain.pool[k] else t.drain.pool[k] = s.pool[k]

/-- R132: releasing a pair no voice holds is a no-op, at either granularity. -/
def Obligations.ReleaseOfUnboundPairIsNoOp : Prop :=
  ∀ (ch : Channel) (note velocity : Byte) (s : State), s.pending = [] →
    (∀ k : VoiceIx, ¬(s.pool[k].bound = true ∧ s.pool[k].ch = ch ∧ s.pool[k].note = note)) →
    exec (.noteOff ch note velocity) s = .next s ∧ exec (.noteOnVel0 ch note) s = .next s

/-- R190, R192, R133: a channel-reset controller and Program Change release every voice bound on the channel and change
nothing else. -/
def Obligations.ChannelReleaseFreesChannel : Prop :=
  ∀ (ch : Channel) (d1 d2 : Byte) (s : State) (i : Instr),
    i = .ccChannelReset ch d1 d2 ∨ i = .pc ch d1 → s.pending = [] →
    ∃ t, exec i s = .next t ∧ s.Whole t ∧ s.SameButPool t.drain ∧
      ∀ k : VoiceIx, if s.pool[k].bound = true ∧ s.pool[k].ch = ch
        then s.pool[k].ReleasedTo s.build t.drain.pool[k] else t.drain.pool[k] = s.pool[k]

/-- R186: a Note On is ignored for a bound pair, refused for an unbound one above 127, takes the lowest free slot, and
is dropped when there is none. -/
def Obligations.NoteOnTakesLowestFreeSlot : Prop :=
  ∀ (ch : Channel) (note velocity : Byte) (s : State),
    ((∃ k : VoiceIx, s.pool[k].bound = true ∧ s.pool[k].ch = ch ∧ s.pool[k].note = note) →
      exec (.noteOn ch note velocity) s = .next s) ∧
    ((∀ k : VoiceIx, ¬(s.pool[k].bound = true ∧ s.pool[k].ch = ch ∧ s.pool[k].note = note)) →
      (127 < note.toNat → exec (.noteOn ch note velocity) s = .refused .noteAbove127) ∧
      (note.toNat ≤ 127 → (∀ k : VoiceIx, s.pool[k].bound = true) → exec (.noteOn ch note velocity) s = .next s) ∧
      ∀ (n : Fin 128) (k : VoiceIx), note.toNat = n → s.pool[k].bound = false →
        (∀ j : VoiceIx, j < k → s.pool[j].bound = true) →
        ∃ t, exec (.noteOn ch note velocity) s = .next t ∧ s.SameButPool t ∧
          (∀ j : VoiceIx, j ≠ k → t.pool[j] = s.pool[j]) ∧ t.pool[k].bound = true ∧ t.pool[k].en = true ∧
          t.pool[k].ch = ch ∧ t.pool[k].note = note ∧ t.pool[k].phase = 0 ∧
          t.pool[k].half = s.build.noteHalf[n] ∧ t.pool[k].full = 2 * s.build.noteHalf[n])

/-- R188, R150: a drum note triggers the program its map entry names; any other drum note changes nothing. -/
def Obligations.DrumNoteTriggers : Prop :=
  ∀ (note velocity : Byte) (s : State),
    (note.toNat < 35 ∨ 57 < note.toNat → exec (.noteOnDrum note velocity) s = .next s) ∧
    ∀ k : Fin 23, note.toNat = k + 35 →
      (∀ id : ProgramId, s.build.drumNoteMap[k] = some (id : Nat) →
        exec (.noteOnDrum note velocity) s =
          .next { s with drum := { s.drum with prog := some id, seg := 0, stage := .uninitialized } }) ∧
      ((∀ id : ProgramId, s.build.drumNoteMap[k] ≠ some (id : Nat)) → exec (.noteOnDrum note velocity) s = .next s)

/-- R189: a volume controller writes the channel's volume, on channel 9 also `D.chvol`, and nothing else; a value above
127 is refused. -/
def Obligations.VolumeControllerWrites : Prop :=
  ∀ (ch : Channel) (controller value : Byte) (s : State),
    (127 < value.toNat → exec (.ccVolume ch controller value) s = .refused .volumeAbove127) ∧
    (value.toNat ≤ 127 → s.pending = [] →
      ∃ t, exec (.ccVolume ch controller value) s = .next t ∧ s.Whole t ∧ s.SameButVolumes t.drain ∧
        (∀ c : Fin 16, if (c : Nat) = ch.toNat then t.drain.cv[c].toNat = value.toNat / 8 else t.drain.cv[c] = s.cv[c]) ∧
        if ch = 9 then t.drain.drum.chvol.toNat = value.toNat / 8 else t.drain.drum.chvol = s.drum.chvol)

/-- R191, R193, R194: the unlisted controllers and the skipped bytes have no effect. -/
def Obligations.NopAndSkipsChangeNothing : Prop :=
  ∀ (ch : Channel) (d1 d2 : Byte) (low : BitVec 4) (data : BitVec 7) (s : State) (i : Instr),
    i ∈ [.ccNop ch d1 d2, .skipStatusA low, .skipStatusD low, .skipStatusE low, .skipStatusF low, .skipData data] →
    exec i s = .next s

/-- R195: of all the messages only two operand values stop, and nothing faults. -/
def Obligations.OnlyTwoInputsRefused : Prop :=
  ∀ (i : Instr) (s : State),
    (∀ f, exec i s ≠ .fault f) ∧
    ∀ r, exec i s = .refused r ↔
      (∃ ch note velocity, i = .noteOn ch note velocity ∧ 127 < note.toNat ∧ r = .noteAbove127 ∧
        ∀ k : VoiceIx, ¬(s.pool[k].bound = true ∧ s.pool[k].ch = ch ∧ s.pool[k].note = note)) ∨
      (∃ ch controller value, i = .ccVolume ch controller value ∧ 127 < value.toNat ∧ r = .volumeAbove127)

/-- An inference of the spec (41_voice_pool.md, "takes slot `k − 1`"): from an empty pool, up to 20 distinct pairs
take the slots in order; the 21st is dropped. -/
def Obligations.PoolFillsInSlotOrder : Prop :=
  ∀ (s : State) (pairs : List (Channel × BitVec 7)), (∀ k : VoiceIx, s.pool[k].bound = false) → pairs.Nodup →
    pairs.length ≤ 20 →
    ∃ t, playNotes s pairs = some t ∧
      (∀ (k : VoiceIx) (p : Channel × BitVec 7), pairs[(k : Nat)]? = some p →
        t.pool[k].bound = true ∧ t.pool[k].ch = p.1 ∧ t.pool[k].note.toNat = p.2.toNat) ∧
      (∀ k : VoiceIx, pairs.length ≤ k → t.pool[k] = s.pool[k]) ∧
      (pairs.length = 20 → ∀ p : Channel × BitVec 7, playNotes t [p] = some t)

/-- R186, R271: a second Note On for a sounding pair is ignored, so one Note Off frees exactly one voice. -/
def Obligations.DuplicateNoteOnThenNoteOff : Prop :=
  ∀ (s : State) (ch : Channel) (note velocity : Byte), s.pending = [] → note.toNat ≤ 127 →
    (∀ k : VoiceIx, ¬(s.pool[k].bound = true ∧ s.pool[k].ch = ch ∧ s.pool[k].note = note)) →
    (∃ k : VoiceIx, s.pool[k].bound = false) →
    ∃ t u, exec (.noteOn ch note velocity) s = .next t ∧ exec (.noteOn ch note velocity) t = .next t ∧
      exec (.noteOff ch note velocity) t = .next u ∧ u.pending = [] ∧
      ∃ k : VoiceIx, s.pool[k].bound = false ∧ t.pool[k].bound = true ∧ u.pool[k].bound = false ∧
        ∀ j : VoiceIx, j ≠ k → u.pool[j] = s.pool[j]

/-- An inference of the spec (43_midi_dispatcher.md, "No voice is ever bound to channel 9"): on channel 9, where no
voice is bound, the releasing messages have no effect. -/
def Obligations.DrumChannelReleasesNothing : Prop :=
  ∀ (d1 d2 : Byte) (s : State), s.Inv → s.pending = [] →
    exec (.noteOff 9 d1 d2) s = .next s ∧ exec (.ccChannelReset 9 d1 d2) s = .next s ∧ exec (.pc 9 d1) s = .next s

/-! ## Granularity of the event side -/

/-- At granularity `record` a releasing message frees its voices one transition per voice in ascending index order
(R76). That the first is freed in the message's own transition and the others wait in `pending` is the model's choice
(log 5). -/
def Obligations.RecordReleaseFreesOneVoice : Prop :=
  ∀ (i : Instr) (s : State) (k : VoiceIx), s.build.granularity = .record → s.pending = [] →
    s.pool[k].freedBy i = true → (∀ j : VoiceIx, j < k → s.pool[j].freedBy i = false) →
    ∃ t, exec i s = .next t ∧ t = { s with pool := t.pool, pending := t.pending } ∧
      s.pool[k].ReleasedTo s.build t.pool[k] ∧ (∀ j : VoiceIx, j ≠ k → t.pool[j] = s.pool[j]) ∧
      t.pending = ((List.finRange 20).filter (fun j => decide (k < j) && s.pool[j].freedBy i)).map .freeVoice

/-- R76, R189: at granularity `record` a volume controller on channel 9 writes `CV[9]` in its own transition and
`D.chvol` in the next; the empty schedule between them is the model's (log 5). -/
def Obligations.RecordVolumeInTwoCommits : Prop :=
  ∀ (controller value : Byte) (s : State), s.build.granularity = .record → s.pending = [] → value.toNat ≤ 127 →
    ∃ t u, exec (.ccVolume 9 controller value) s = .next t ∧ step (t.scheduled []) = .next u ∧ u.pending = [] ∧
      t.drum = s.drum ∧ (∀ c : Fin 16, if (c : Nat) = 9 then t.cv[c].toNat = value.toNat / 8 else t.cv[c] = s.cv[c]) ∧
      u.cv = t.cv ∧ u.drum = { s.drum with chvol := t.cv[9] }

/-- What a record commit writes: one voice freed, one channel volume, or `D.chvol`, and nothing else (R76, R132, R189). -/
def Obligations.CommitWritesOneRecord : Prop :=
  ∀ s : State,
    (∀ k : VoiceIx, s.SameButPool (s.applyCommit (.freeVoice k)) ∧ ∀ j : VoiceIx,
      if j = k then s.pool[j].ReleasedTo s.build (s.applyCommit (.freeVoice k)).pool[j]
      else (s.applyCommit (.freeVoice k)).pool[j] = s.pool[j]) ∧
    (∀ (ch : Channel) (v : Volume),
      s.applyCommit (.channelVolume ch v) = { s with cv := (s.applyCommit (.channelVolume ch v)).cv } ∧
      ∀ c : Fin 16, (s.applyCommit (.channelVolume ch v)).cv[c] = if (c : Nat) = ch.toNat then v else s.cv[c]) ∧
    ∀ v : Volume, s.applyCommit (.drumVolume v) = { s with drum := { s.drum with chvol := v } }

/-- When a commit still to come is made is the model's choice (log 5): by the next step when the inbox is empty, or a
byte is next, which stays in the inbox, or the schedule's `commit` is next, which is taken; the step makes that commit
and nothing else. A tick leaves the commits to come, so that one may fall between any two of them (R76). -/
def Obligations.PendingCommitSteps : Prop :=
  ∀ (s : State) (c : Commit) (more : List Commit), s.pending = c :: more →
    (s.inbox = [] → step s = .next (State.applyCommit { s with pending := more } c)) ∧
    (∀ b rest, s.inbox = .byte b :: rest → step s = .next (State.applyCommit { s with pending := more } c)) ∧
    (∀ rest, s.inbox = .commit :: rest →
      step s = .next (State.applyCommit { s with pending := more, inbox := rest } c)) ∧
    ∀ rest t, s.inbox = .tick :: rest → step s = .next t → t.pending = c :: more

/-- R76: once its commits are made, a message at granularity `record` has done exactly what it does at granularity
`message`. -/
def Obligations.RecordDrainsToMessage : Prop :=
  ∀ (i : Instr) (s : State), s.build.granularity = .record → s.pending = [] →
    let m : State := { s with build := { s.build with granularity := .message } }
    (∀ t, exec i s = .next t → exec i m = .next { t.drain with build := m.build }) ∧
    (∀ r, exec i s = .refused r → exec i m = .refused r)

/-! ## The PRNG -/

/-- R120. -/
def Obligations.PrngNext : Prop :=
  ∀ seed : Seed, (prngNext seed).1.toNat = (seed.toNat * 9 + 0x3711) % 65536 ∧
    (prngNext seed).2.toNat = (seed.toNat * 9 + 0x3711) % 65536 / 256

/-- An inference of the spec (40_prng.md, "visits all 65536 seed values before repeating"): the recurrence returns to
any seed after 65536 steps and not before. -/
def Obligations.PrngFullPeriod : Prop :=
  ∀ seed : Seed, prngStep^[65536] seed = seed ∧ ∀ n, 0 < n → n < 65536 → prngStep^[n] seed ≠ seed

/-- R123. -/
def Obligations.SeedLoadSetsSeedOnly : Prop :=
  ∀ (s : State) (v : Seed) (rest : List Event), s.inbox = .seedLoad v :: rest →
    step s = .next { s with inbox := rest, seed := v }

/-- R124: the seed moves only by one step of the recurrence, on a tick whose noise path runs and draws, or by a seed
load or a reset. -/
def Obligations.SeedMovesOnlyOnNoiseDraw : Prop :=
  ∀ s t : State, step s = .next t → t.seed ≠ s.seed →
    (∃ v rest, s.inbox = .seedLoad v :: rest ∧ t.seed = v) ∨
    (∃ rest, s.inbox = .reset :: rest ∧ t.seed = s.build.seedReset) ∨
    (∃ rest p g, s.inbox = .tick :: rest ∧ s.drum.stage ≠ .finished ∧ s.drum.current s.build = some (p, g) ∧
      g.mixMask[1] = false ∧ toneVote s.build g s.drum.tonePhase t.drum ∧
      t.drum.noisePeriod ≤ (s.drum.noisePhase + s.build.drumPhaseInc) % 2 ^ s.build.cw ∧
      t.seed.toNat = (s.seed.toNat * 9 + 0x3711) % 65536)

/-! ## The tick -/

/-- R134: each voice's phase accumulator on a tick, and its output bit. -/
def Obligations.VoicePhaseAccumulates : Prop :=
  ∀ (s t : State) (rest : List Event), s.inbox = .tick :: rest → step s = .next t → ∀ k : VoiceIx,
    let v := s.pool[k]
    let p := (v.phase + s.build.voiceTickInc) % 2 ^ s.build.cw
    (if v.bound = false then t.pool[k] = v
     else if p < v.half then t.pool[k] = { v with phase := p }
     else if v.full < p then t.pool[k] = { v with phase := p - v.full }
     else t.pool[k] = { v with phase := p }) ∧
    ((v.tick s.build).2 = true ↔ v.bound = true ∧ v.en = true ∧ (p < v.half ∨ v.full < p))

/-- R220 to R223: a tick sums the voices that are bound and high, adds the NoiseDrum's amplitude, divides by 9 and
clamps; every voice is ticked, it takes what the NoiseDrum's own tick left, and no other register is written. -/
def Obligations.TickMixesVoicesAndDrum : Prop :=
  ∀ (s : State) (rest : List Event) (o : DrumOut), s.inbox = .tick :: rest →
    drumTick s.build s.drum s.seed = some o →
    ∃ t, step s = .next t ∧ t.drum = o.drum ∧ t.seed = o.seed ∧
      (∀ k : VoiceIx, t.pool[k] = (s.pool[k].tick s.build).1) ∧
      t = { s with pool := t.pool, drum := t.drum, seed := t.seed, outLevel := t.outLevel, inbox := rest } ∧
      t.outLevel.toNat = min (((∑ k : VoiceIx,
        (let v := s.pool[k]
         let p := (v.phase + s.build.voiceTickInc) % 2 ^ s.build.cw
         if v.bound = true ∧ v.en = true ∧ (p < v.half ∨ v.full < p)
         then (s.build.voiceCurve[s.cv[v.ch.toFin].toNat * 2 + 1]'(by omega)).toNat else 0)) + o.amp.toNat) / 9) 255

/-- R242, R223: `OUT_LEVEL` moves only on a tick, but for a reset. -/
def Obligations.OutLevelMovesOnlyOnTick : Prop :=
  ∀ s t : State, step s = .next t → t.outLevel ≠ s.outLevel →
    ∃ rest, s.inbox = .tick :: rest ∨ s.inbox = .reset :: rest ∧ t.outLevel = 0

/-- R222: the level of a sum, for every sum; the sum of a tick is at most 5355. -/
def Obligations.MixerClampsNeverWraps : Prop :=
  (∀ total : Nat, (mixLevel total).toNat = if total / 9 ≤ 255 then total / 9 else 255) ∧
    ∀ (s : State) (o : DrumOut), drumTick s.build s.drum s.seed = some o → s.voiceTotal + o.amp.toNat ≤ 5355

/-- An inference of the spec (44_mixer.md, "Silence"): with no voice bound and the NoiseDrum finished a tick changes
nothing but `OUT_LEVEL`, which becomes 0; from reset, ticks alone leave the reset state. -/
def Obligations.SilenceWithoutVoicesOrDrum : Prop :=
  (∀ (s : State) (rest : List Event), s.inbox = .tick :: rest → (∀ k : VoiceIx, s.pool[k].bound = false) →
    s.drum.stage = .finished → step s = .next { s with inbox := rest, outLevel := 0 }) ∧
  ∀ (b : Build) (n : Nat),
    core.run n ((State.resetOf b).scheduled (List.replicate n .tick)) = .next (State.resetOf b)

/-- An inference of the spec (41_voice_pool.md, "The waveform"): the square wave of a voice of half-period `H`, at
increment 1: with `H` at least 2, high on the first `H − 1` ticks of each period of `2H` but for the shift of the wrap
tick, as the spec counts them. -/
def Obligations.VoiceWaveform : Prop :=
  ∀ (b : Build) (v : Voice) (H : Nat), b.voiceTickInc = 1 → 2 ≤ H → 2 * H < 2 ^ b.cw → v.bound = true → v.en = true →
    v.phase = 0 → v.half = H → v.full = 2 * H → ∀ k : Nat,
    ((v.ticked b k).tick b).2 = decide (k % (2 * H) < H - 1) ∧ (v.ticked b (k + 1)).phase = k % (2 * H) + 1

/-! ## The NoiseDrum -/

/-- R154: a finished NoiseDrum is silent and nothing moves; the first tick of a segment is the tick of the primed
record. -/
def Obligations.FinishedSilentAndFirstTickPrimes : Prop :=
  (∀ (b : Build) (d : Drum) (seed : Seed), d.stage = .finished →
    drumTick b d seed = some { drum := d, seed := seed, amp := 0 }) ∧
  ∀ (b : Build) (d : Drum) (seed : Seed) (p : Program) (g : Segment), d.stage = .uninitialized →
    d.current b = some (p, g) →
    drumTick b d seed = drumTick b
      { d with
        tonePeriod := g.tonePeriod, toneHalf := g.tonePeriod >>> 1, noisePeriod := g.noisePeriod
        envElapsed := 0, toneSweepAcc := 0, noiseSweepAcc := 0, stage := .running } seed

/-- R155, R158, R159, R160, R151: the elapsed counter, and what a running segment's tick sounds and whether it
advances, by its two votes. -/
def Obligations.SegmentSoundsAndAdvances : Prop :=
  ∀ (b : Build) (d : Drum) (seed : Seed) (p : Program) (g : Segment) (o : DrumOut), d.stage = .running →
    d.current b = some (p, g) → drumTick b d seed = some o →
    let el := (d.envElapsed + b.drumTimeInc) % 2 ^ b.cw
    let voted : Prop := toneVote b g d.tonePhase o.drum ∧ noiseVoteOf g o.drum
    o.drum.envElapsed = el ∧ o.drum.chvol = d.chvol ∧
    (¬voted → o.amp = 0 ∧ d.SamePosition o.drum) ∧
    (voted → g.envDuration = 0 →
      (∀ k : Fin 17, (k : Nat) = g.volume.toNat → o.amp = b.drumCurve[k]) ∧
      (g.duration < el → d.AdvancesTo p o.drum) ∧ (¬g.duration < el → d.SamePosition o.drum)) ∧
    (voted → g.envDuration ≠ 0 → g.envDuration < el → o.amp = 0 ∧ d.AdvancesTo p o.drum) ∧
    (voted → g.envDuration ≠ 0 → ¬g.envDuration < el →
      d.SamePosition o.drum ∧ ∀ k : Fin 17,
        (k : Nat) = (g.volume.toNat - g.volume.toNat * el / g.envDuration) * d.chvol.toNat / 16 →
        o.amp = b.drumCurve[k])

/-- R156: the tone path of a running segment: the sweep, the phase counter and its wrap; a disabled path moves
nothing; a tone-low tick is silent, does not advance and does not run the noise path. -/
def Obligations.TonePathOfRunningSegment : Prop :=
  ∀ (b : Build) (d : Drum) (seed : Seed) (p : Program) (g : Segment) (o : DrumOut), d.stage = .running →
    d.current b = some (p, g) → drumTick b d seed = some o →
    let acc := (d.toneSweepAcc + b.drumTimeInc) % 2 ^ b.cw
    let ph := (d.tonePhase + b.drumPhaseInc) % 2 ^ b.cw
    (g.mixMask[0] = true → o.drum.tonePeriod = d.tonePeriod ∧ o.drum.toneHalf = d.toneHalf ∧
      o.drum.toneSweepAcc = d.toneSweepAcc ∧ o.drum.tonePhase = d.tonePhase) ∧
    (g.mixMask[0] = false →
      (if b.frameTime ≤ acc ∧ g.toneSweepStep ≠ 0
       then o.drum.tonePeriod = (d.tonePeriod + g.toneSweepStep) % 2 ^ b.cw ∧ o.drum.toneHalf = o.drum.tonePeriod >>> 1 ∧
         o.drum.toneSweepAcc = acc - b.frameTime
       else o.drum.tonePeriod = d.tonePeriod ∧ o.drum.toneHalf = d.toneHalf ∧ o.drum.toneSweepAcc = acc) ∧
      o.drum.tonePhase = if ph < o.drum.toneHalf then ph else if o.drum.tonePeriod < ph then ph - o.drum.tonePeriod else ph) ∧
    (¬toneVote b g d.tonePhase o.drum → o.amp = 0 ∧ d.SamePosition o.drum ∧ o.seed = seed ∧ o.drum.noisePeriod = d.noisePeriod ∧
      o.drum.noiseSweepAcc = d.noiseSweepAcc ∧ o.drum.noisePhase = d.noisePhase ∧ o.drum.noiseBit = d.noiseBit)

/-- R157: the noise path of a running segment whose tone voted high: the sweep, the phase counter, the draw and the
held bit; a disabled path moves nothing. -/
def Obligations.NoisePathOfRunningSegment : Prop :=
  ∀ (b : Build) (d : Drum) (seed : Seed) (p : Program) (g : Segment) (o : DrumOut), d.stage = .running →
    d.current b = some (p, g) → drumTick b d seed = some o → toneVote b g d.tonePhase o.drum →
    let acc := (d.noiseSweepAcc + b.drumTimeInc) % 2 ^ b.cw
    let ph := (d.noisePhase + b.drumPhaseInc) % 2 ^ b.cw
    let drawn : Nat := (seed.toNat * 9 + 0x3711) % 65536
    (g.mixMask[1] = true → o.seed = seed ∧ o.drum.noisePeriod = d.noisePeriod ∧
      o.drum.noiseSweepAcc = d.noiseSweepAcc ∧ o.drum.noisePhase = d.noisePhase ∧ o.drum.noiseBit = d.noiseBit) ∧
    (g.mixMask[1] = false →
      (if g.noiseSweepPeriod ≠ 0 ∧ g.noiseSweepPeriod < acc
       then o.drum.noisePeriod = (d.noisePeriod + g.noiseSweepStep) % 2 ^ b.cw ∧ o.drum.noiseSweepAcc = acc - g.noiseSweepPeriod
       else o.drum.noisePeriod = d.noisePeriod ∧ o.drum.noiseSweepAcc = acc) ∧
      if o.drum.noisePeriod ≤ ph
      then o.seed.toNat = drawn ∧ o.drum.noisePhase = ph - o.drum.noisePeriod ∧
        (o.drum.noiseBit = true ↔ 128 ≤ drawn / 256 ∧ (g.envDuration = 0 ∨ o.drum.envElapsed ≤ g.envDuration))
      else o.seed = seed ∧ o.drum.noisePhase = ph ∧ o.drum.noiseBit = d.noiseBit)

/-- An inference of the spec (42_noise_drum.md, "The curve index"): the amplitude is 0 or one of the curve's first 16
entries. -/
def Obligations.DrumAmplitudeFromCurve : Prop :=
  ∀ (b : Build) (d : Drum) (seed : Seed) (o : DrumOut), drumTick b d seed = some o →
    o.amp = 0 ∨ ∃ k : Fin 17, (k : Nat) < 16 ∧ o.amp = b.drumCurve[k]

/-- R63: on a build whose drum curve saturates, the common value of its last two entries is the largest amplitude of a
NoiseDrum tick; a sustained segment of volume 15 sounds it on every vote of 1. -/
def Obligations.DrumAmplitudeSaturates : Prop :=
  ∀ (b : Build) (d : Drum) (seed : Seed) (o : DrumOut), b.Saturates → drumTick b d seed = some o →
    o.amp ≤ b.drumCurve[16] ∧
    ∀ (p : Program) (g : Segment), d.stage ≠ .finished → d.current b = some (p, g) → g.envDuration = 0 → g.volume = 15 →
      toneVote b g d.tonePhase o.drum → noiseVoteOf g o.drum → o.amp = b.drumCurve[16]

/-- R152: the only ways the stage changes, over every step. -/
def Obligations.StageTransitions : Prop :=
  ∀ s t : State, step s = .next t →
    (t.drum.stage = .running → s.drum.stage = .running ∨
      (s.drum.stage = .uninitialized ∧ ∃ rest, s.inbox = .tick :: rest)) ∧
    (t.drum.stage = .finished → s.drum.stage = .finished ∨ (∃ rest, s.inbox = .reset :: rest) ∨
      ∃ rest id, s.inbox = .tick :: rest ∧ s.drum.prog = some id ∧ t.drum.prog = some id ∧ t.drum.seg = s.drum.seg ∧
        s.build.program[id].rest.length + 1 ≤ s.drum.seg + 1) ∧
    (t.drum.stage = .uninitialized →
      (s.drum.SamePosition t.drum ∧ ∀ rest, s.inbox ≠ .tick :: rest) ∨
      (∃ b rest id, s.inbox = .byte b :: rest ∧ t.drum.prog = some id ∧ t.drum.seg = 0) ∨
      ∃ rest id, s.inbox = .tick :: rest ∧ s.drum.prog = some id ∧ t.drum.prog = some id ∧
        t.drum.seg = s.drum.seg + 1 ∧ t.drum.seg < s.build.program[id].rest.length + 1)

/-- An inference of the spec (42_noise_drum.md, "can fail to end"): a decaying segment with the noise path enabled
whose held bit is 0 past its envelope does not advance and is silent, and its held bit stays 0, for as long as the
elapsed counter does not wrap. -/
def Obligations.DecayedNoiseSegmentHangs : Prop :=
  ∀ (b : Build) (d : Drum) (seed : Seed) (p : Program) (g : Segment) (n : Nat), d.stage = .running →
    d.current b = some (p, g) → g.envDuration ≠ 0 → g.mixMask[1] = false → d.noiseBit = false →
    g.envDuration < d.envElapsed + b.drumTimeInc → d.envElapsed + n * b.drumTimeInc < 2 ^ b.cw →
    ∃ run : Nat → DrumOut, run 0 = ⟨d, seed, 0⟩ ∧
      ∀ k, k < n → drumTick b (run k).drum (run k).seed = some (run (k + 1)) ∧ (run (k + 1)).amp = 0 ∧
        (run (k + 1)).drum.noiseBit = false ∧ d.SamePosition (run (k + 1)).drum

/-! ## The whole machine -/

/-- R260, R40: a `Reset` event puts every register at its value of R40 and leaves the tables. -/
def Obligations.ResetSetsEveryRegister : Prop :=
  ∀ (s : State) (rest : List Event), s.inbox = .reset :: rest →
    ∃ t, step s = .next t ∧ t.build = s.build ∧
      (∀ k : VoiceIx, t.pool[k].bound = false ∧ t.pool[k].en = false ∧ t.pool[k].half = 2 ^ s.build.cw - 1 ∧
        t.pool[k].full = 2 ^ s.build.cw - 1 ∧ t.pool[k].phase = 0 ∧ t.pool[k].ch = 0 ∧ t.pool[k].note = 0) ∧
      (∀ c : Fin 16, t.cv[c] = s.build.chvolReset) ∧ t.drum.prog = none ∧ t.drum.seg = 0 ∧ t.drum.stage = .finished ∧
      t.drum.tonePeriod = 0 ∧ t.drum.toneHalf = 0 ∧ t.drum.noisePeriod = 0 ∧ t.drum.tonePhase = 0 ∧
      t.drum.noisePhase = 0 ∧ t.drum.toneSweepAcc = 0 ∧ t.drum.noiseSweepAcc = 0 ∧ t.drum.envElapsed = 0 ∧
      t.drum.noiseBit = false ∧ t.drum.chvol = s.build.chvolReset ∧ t.seed = s.build.seedReset ∧ t.outLevel = 0 ∧
      t.rx = .idle

/-- Inferences of the spec (10_state.md, "Voice invariants", "NoiseDrum invariants", and R197's sentence), the
widths of R39 (log 1), and the model's own `pending` (log 5): the reset state meets the invariants, on every build. -/
def Obligations.ResetMeetsInvariant : Prop :=
  State.reset.Inv ∧ ∀ b : Build, (State.resetOf b).Inv

/-- Inferences of the spec (10_state.md, "Voice invariants", "NoiseDrum invariants", and R197's sentence), the
widths of R39 (log 1), and the model's own `pending` (log 5): every step keeps the invariants. -/
def Obligations.StepKeepsInvariant : Prop :=
  ∀ s t : State, s.Inv → step s = .next t → t.Inv

/-- An inference of the spec (10_state.md, "so `D.chvol = CV[9]` at all times"): the two registers agree whenever no
commit is to come, and at granularity `message` always. -/
def Obligations.DrumVolumeIsChannelNine : Prop :=
  ∀ s : State, s.Inv → s.pending = [] ∨ s.build.granularity = .message → s.drum.chvol = s.cv[9]

/-- R230: no step raises a fault. -/
def Obligations.InvariantStepNeverFaults : Prop :=
  ∀ (s : State) (f : Fault), s.Inv → step s ≠ .fault f

/-- An inference of the spec (44_mixer.md, "Every tick runs"): from any state that meets the invariants it answers a
next state. -/
def Obligations.EveryTickCompletes : Prop :=
  ∀ (s : State) (rest : List Event), s.Inv → s.inbox = .tick :: rest → ∃ t, step s = .next t ∧ t.inbox = rest

/-- R60: no message and no event writes any table. -/
def Obligations.StepKeepsTables : Prop :=
  ∀ s t : State, step s = .next t → t.build = s.build

/-- R41: what the tick context writes, and what the event context writes, with the byte that completes a message and
with a record commit of its own (R76). That commits wait in `pending`, which a tick leaves, and that an empty inbox or
the event `commit` lets the next through, is the model's choice (log 5). -/
def Obligations.ContextsWriteTheirOwnState : Prop :=
  ∀ s t : State, step s = .next t →
    (∀ rest, s.inbox = .tick :: rest → t.rx = s.rx ∧ t.cv = s.cv ∧ t.pending = s.pending ∧ t.drum.prog = s.drum.prog ∧
      t.drum.chvol = s.drum.chvol ∧ ∀ k : VoiceIx, t.pool[k] = { s.pool[k] with phase := t.pool[k].phase }) ∧
    (∀ b rest, s.inbox = .byte b :: rest → t.seed = s.seed ∧ t.outLevel = s.outLevel ∧
      (∀ k : VoiceIx, t.pool[k].phase = s.pool[k].phase ∨ t.pool[k].phase = 0) ∧
      t.drum = { s.drum with prog := t.drum.prog, seg := t.drum.seg, stage := t.drum.stage, chvol := t.drum.chvol } ∧
      (s.drum.SamePosition t.drum ∨ ∃ id, t.drum.prog = some id ∧ t.drum.seg = 0 ∧ t.drum.stage = .uninitialized)) ∧
    (s.inbox = [] ∨ (∃ rest, s.inbox = .commit :: rest) →
      t = { s with pool := t.pool, cv := t.cv, drum := { s.drum with chvol := t.drum.chvol }, inbox := s.inbox.tail,
                   pending := s.pending.tail } ∧
      ∀ k : VoiceIx, t.pool[k] = s.pool[k] ∨ s.pool[k].ReleasedTo s.build t.pool[k])
end

