-- ==== Sys2Proof/Laws/State.lean ====
section
/-! SUPPORT. What each register operation does to each field of State: one lemma per field, true by rfl. -/

namespace Sys2Proof.Machine

@[simp] theorem State.setVoice_pool (s : State) (i : VoiceIx) (v : Voice) : (s.setVoice i v).pool = s.pool.set i v := rfl
@[simp] theorem State.setVoice_cv (s : State) (i : VoiceIx) (v : Voice) : (s.setVoice i v).cv = s.cv := rfl
@[simp] theorem State.setVoice_drum (s : State) (i : VoiceIx) (v : Voice) : (s.setVoice i v).drum = s.drum := rfl
@[simp] theorem State.setVoice_seed (s : State) (i : VoiceIx) (v : Voice) : (s.setVoice i v).seed = s.seed := rfl
@[simp] theorem State.setVoice_outLevel (s : State) (i : VoiceIx) (v : Voice) : (s.setVoice i v).outLevel = s.outLevel := rfl
@[simp] theorem State.setVoice_rx (s : State) (i : VoiceIx) (v : Voice) : (s.setVoice i v).rx = s.rx := rfl
@[simp] theorem State.setVoice_inbox (s : State) (i : VoiceIx) (v : Voice) : (s.setVoice i v).inbox = s.inbox := rfl
@[simp] theorem State.setVoice_pending (s : State) (i : VoiceIx) (v : Voice) : (s.setVoice i v).pending = s.pending := rfl
@[simp] theorem State.setVoice_build (s : State) (i : VoiceIx) (v : Voice) : (s.setVoice i v).build = s.build := rfl

@[simp] theorem State.freeVoice_pool (s : State) (i : VoiceIx) : (s.freeVoice i).pool = s.pool.set i (s.pool[i].freed s.build) := rfl
@[simp] theorem State.freeVoice_cv (s : State) (i : VoiceIx) : (s.freeVoice i).cv = s.cv := rfl
@[simp] theorem State.freeVoice_drum (s : State) (i : VoiceIx) : (s.freeVoice i).drum = s.drum := rfl
@[simp] theorem State.freeVoice_seed (s : State) (i : VoiceIx) : (s.freeVoice i).seed = s.seed := rfl
@[simp] theorem State.freeVoice_outLevel (s : State) (i : VoiceIx) : (s.freeVoice i).outLevel = s.outLevel := rfl
@[simp] theorem State.freeVoice_rx (s : State) (i : VoiceIx) : (s.freeVoice i).rx = s.rx := rfl
@[simp] theorem State.freeVoice_inbox (s : State) (i : VoiceIx) : (s.freeVoice i).inbox = s.inbox := rfl
@[simp] theorem State.freeVoice_pending (s : State) (i : VoiceIx) : (s.freeVoice i).pending = s.pending := rfl
@[simp] theorem State.freeVoice_build (s : State) (i : VoiceIx) : (s.freeVoice i).build = s.build := rfl

@[simp] theorem State.setChannelVolume_pool (s : State) (c : Channel) (v : Volume) : (s.setChannelVolume c v).pool = s.pool := rfl
@[simp] theorem State.setChannelVolume_cv (s : State) (c : Channel) (v : Volume) : (s.setChannelVolume c v).cv = s.cv.set c.toNat v c.isLt := rfl
@[simp] theorem State.setChannelVolume_drum (s : State) (c : Channel) (v : Volume) : (s.setChannelVolume c v).drum = s.drum := rfl
@[simp] theorem State.setChannelVolume_seed (s : State) (c : Channel) (v : Volume) : (s.setChannelVolume c v).seed = s.seed := rfl
@[simp] theorem State.setChannelVolume_outLevel (s : State) (c : Channel) (v : Volume) : (s.setChannelVolume c v).outLevel = s.outLevel := rfl
@[simp] theorem State.setChannelVolume_rx (s : State) (c : Channel) (v : Volume) : (s.setChannelVolume c v).rx = s.rx := rfl
@[simp] theorem State.setChannelVolume_inbox (s : State) (c : Channel) (v : Volume) : (s.setChannelVolume c v).inbox = s.inbox := rfl
@[simp] theorem State.setChannelVolume_pending (s : State) (c : Channel) (v : Volume) : (s.setChannelVolume c v).pending = s.pending := rfl
@[simp] theorem State.setChannelVolume_build (s : State) (c : Channel) (v : Volume) : (s.setChannelVolume c v).build = s.build := rfl

@[simp] theorem State.setDrumVolume_pool (s : State) (v : Volume) : (s.setDrumVolume v).pool = s.pool := rfl
@[simp] theorem State.setDrumVolume_cv (s : State) (v : Volume) : (s.setDrumVolume v).cv = s.cv := rfl
@[simp] theorem State.setDrumVolume_drum (s : State) (v : Volume) : (s.setDrumVolume v).drum = { s.drum with chvol := v } := rfl
@[simp] theorem State.setDrumVolume_seed (s : State) (v : Volume) : (s.setDrumVolume v).seed = s.seed := rfl
@[simp] theorem State.setDrumVolume_outLevel (s : State) (v : Volume) : (s.setDrumVolume v).outLevel = s.outLevel := rfl
@[simp] theorem State.setDrumVolume_rx (s : State) (v : Volume) : (s.setDrumVolume v).rx = s.rx := rfl
@[simp] theorem State.setDrumVolume_inbox (s : State) (v : Volume) : (s.setDrumVolume v).inbox = s.inbox := rfl
@[simp] theorem State.setDrumVolume_pending (s : State) (v : Volume) : (s.setDrumVolume v).pending = s.pending := rfl
@[simp] theorem State.setDrumVolume_build (s : State) (v : Volume) : (s.setDrumVolume v).build = s.build := rfl

@[simp] theorem State.seedLoad_pool (s : State) (v : Seed) : (s.seedLoad v).pool = s.pool := rfl
@[simp] theorem State.seedLoad_cv (s : State) (v : Seed) : (s.seedLoad v).cv = s.cv := rfl
@[simp] theorem State.seedLoad_drum (s : State) (v : Seed) : (s.seedLoad v).drum = s.drum := rfl
@[simp] theorem State.seedLoad_seed (s : State) (v : Seed) : (s.seedLoad v).seed = v := rfl
@[simp] theorem State.seedLoad_outLevel (s : State) (v : Seed) : (s.seedLoad v).outLevel = s.outLevel := rfl
@[simp] theorem State.seedLoad_rx (s : State) (v : Seed) : (s.seedLoad v).rx = s.rx := rfl
@[simp] theorem State.seedLoad_inbox (s : State) (v : Seed) : (s.seedLoad v).inbox = s.inbox := rfl
@[simp] theorem State.seedLoad_pending (s : State) (v : Seed) : (s.seedLoad v).pending = s.pending := rfl
@[simp] theorem State.seedLoad_build (s : State) (v : Seed) : (s.seedLoad v).build = s.build := rfl

@[simp] theorem State.trigger_pool (s : State) (id : ProgramId) : (s.trigger id).pool = s.pool := rfl
@[simp] theorem State.trigger_cv (s : State) (id : ProgramId) : (s.trigger id).cv = s.cv := rfl
@[simp] theorem State.trigger_drum (s : State) (id : ProgramId) : (s.trigger id).drum = { s.drum with prog := some id, seg := 0, stage := .uninitialized } := rfl
@[simp] theorem State.trigger_seed (s : State) (id : ProgramId) : (s.trigger id).seed = s.seed := rfl
@[simp] theorem State.trigger_outLevel (s : State) (id : ProgramId) : (s.trigger id).outLevel = s.outLevel := rfl
@[simp] theorem State.trigger_rx (s : State) (id : ProgramId) : (s.trigger id).rx = s.rx := rfl
@[simp] theorem State.trigger_inbox (s : State) (id : ProgramId) : (s.trigger id).inbox = s.inbox := rfl
@[simp] theorem State.trigger_pending (s : State) (id : ProgramId) : (s.trigger id).pending = s.pending := rfl
@[simp] theorem State.trigger_build (s : State) (id : ProgramId) : (s.trigger id).build = s.build := rfl

@[simp] theorem State.powerUp_pool (s : State) : s.powerUp.pool = Vector.replicate 20 (Voice.reset s.build) := rfl
@[simp] theorem State.powerUp_cv (s : State) : s.powerUp.cv = Vector.replicate 16 s.build.chvolReset := rfl
@[simp] theorem State.powerUp_drum (s : State) : s.powerUp.drum = Drum.reset s.build.chvolReset := rfl
@[simp] theorem State.powerUp_seed (s : State) : s.powerUp.seed = s.build.seedReset := rfl
@[simp] theorem State.powerUp_outLevel (s : State) : s.powerUp.outLevel = 0 := rfl
@[simp] theorem State.powerUp_rx (s : State) : s.powerUp.rx = .idle := rfl
@[simp] theorem State.powerUp_inbox (s : State) : s.powerUp.inbox = s.inbox := rfl
@[simp] theorem State.powerUp_pending (s : State) : s.powerUp.pending = [] := rfl
@[simp] theorem State.powerUp_build (s : State) : s.powerUp.build = s.build := rfl

end Sys2Proof.Machine
end

