-- ==== Sys2Proof/Laws/Commits.lean ====
section
/-! SUPPORT. What record commits do, one at a time, drained, and issued by a message (R76). -/

namespace Sys2Proof.Machine

open Config

/-- What a commit can change: the pool, the channel volumes, `D.chvol`. -/
theorem State.applyCommit_frame (s : State) (c : Commit) :
    s.applyCommit c = { s with pool := (s.applyCommit c).pool, cv := (s.applyCommit c).cv,
                               drum := { s.drum with chvol := (s.applyCommit c).drum.chvol } } := by
  cases c <;> rfl

theorem State.foldl_applyCommit_frame (cs : List Commit) (s : State) :
    cs.foldl State.applyCommit s =
      { s with pool := (cs.foldl State.applyCommit s).pool, cv := (cs.foldl State.applyCommit s).cv,
               drum := { s.drum with chvol := (cs.foldl State.applyCommit s).drum.chvol } } := by
  induction cs generalizing s with
  | nil => rfl
  | cons c cs ih =>
    rw [List.foldl_cons, ih]
    cases c <;> rfl

/-- What draining can change. -/
theorem State.drain_frame (s : State) :
    s.drain = { s with pool := s.drain.pool, cv := s.drain.cv, drum := { s.drum with chvol := s.drain.drum.chvol },
                       pending := [] } :=
  State.foldl_applyCommit_frame s.pending { s with pending := [] }

@[simp] theorem State.drain_seed (s : State) : s.drain.seed = s.seed := by rw [State.drain_frame]
@[simp] theorem State.drain_outLevel (s : State) : s.drain.outLevel = s.outLevel := by rw [State.drain_frame]
@[simp] theorem State.drain_rx (s : State) : s.drain.rx = s.rx := by rw [State.drain_frame]
@[simp] theorem State.drain_inbox (s : State) : s.drain.inbox = s.inbox := by rw [State.drain_frame]
@[simp] theorem State.drain_pending (s : State) : s.drain.pending = [] := by rw [State.drain_frame]
@[simp] theorem State.drain_build (s : State) : s.drain.build = s.build := by rw [State.drain_frame]

theorem State.drain_of_pending_nil {s : State} (h : s.pending = []) : s.drain = s := by
  cases s; simp only at h; subst h; rfl

@[simp] theorem State.drain_drain (s : State) : s.drain.drain = s.drain := State.drain_of_pending_nil (by simp)

/-- Making the next commit does not change what draining leads to. -/
@[simp] theorem State.commitNext_drain (s : State) : s.commitNext.drain = s.drain := by
  obtain ⟨pool, cv, drum, seed, out, rx, inbox, pending, build⟩ := s
  cases pending with
  | nil => rfl
  | cons c cs => cases c <;> rfl

theorem State.commitNext_of_pending_nil {s : State} (h : s.pending = []) : s.commitNext = s := by
  simp [State.commitNext, h]

theorem State.commitNext_of_pending_cons {s : State} {c : Commit} {cs : List Commit} (h : s.pending = c :: cs) :
    s.commitNext = State.applyCommit { s with pending := cs } c := by
  simp [State.commitNext, h]

/-- What one commit of the event context can change. -/
theorem State.commitNext_frame (s : State) :
    s.commitNext = { s with pool := s.commitNext.pool, cv := s.commitNext.cv,
                            drum := { s.drum with chvol := s.commitNext.drum.chvol },
                            pending := s.pending.tail } := by
  obtain ⟨pool, cv, drum, seed, out, rx, inbox, pending, build⟩ := s
  cases pending with
  | nil => rfl
  | cons c cs => cases c <;> rfl

@[simp] theorem State.commitNext_seed (s : State) : s.commitNext.seed = s.seed := by rw [State.commitNext_frame]
@[simp] theorem State.commitNext_outLevel (s : State) : s.commitNext.outLevel = s.outLevel := by rw [State.commitNext_frame]
@[simp] theorem State.commitNext_rx (s : State) : s.commitNext.rx = s.rx := by rw [State.commitNext_frame]
@[simp] theorem State.commitNext_inbox (s : State) : s.commitNext.inbox = s.inbox := by rw [State.commitNext_frame]
@[simp] theorem State.commitNext_build (s : State) : s.commitNext.build = s.build := by rw [State.commitNext_frame]
@[simp] theorem State.commitNext_pending (s : State) : s.commitNext.pending = s.pending.tail := by rw [State.commitNext_frame]

/-- At granularity `message` nothing is left pending. -/
theorem State.issue_message {s : State} (h : s.build.granularity = .message) (cs : List Commit) :
    s.issue cs = State.drain { s with pending := s.pending ++ cs } := by
  simp [State.issue, h]

/-- At granularity `record` the first commit is made now. -/
theorem State.issue_record {s : State} (h : s.build.granularity = .record) (cs : List Commit) :
    s.issue cs = State.commitNext { s with pending := s.pending ++ cs } := by
  simp [State.issue, h]

/-- Whatever the granularity, the commits of a message lead to the same state once all are made. -/
@[simp] theorem State.issue_drain (s : State) (cs : List Commit) :
    (s.issue cs).drain = State.drain { s with pending := s.pending ++ cs } := by
  unfold State.issue; split <;> simp

/-- What issuing commits can change. -/
theorem State.issue_frame (s : State) (cs : List Commit) :
    s.issue cs = { s with pool := (s.issue cs).pool, cv := (s.issue cs).cv,
                          drum := { s.drum with chvol := (s.issue cs).drum.chvol },
                          pending := (s.issue cs).pending } := by
  unfold State.issue
  split
  · rw [State.drain_frame]
  · rw [State.commitNext_frame]

@[simp] theorem State.issue_seed (s : State) (cs : List Commit) : (s.issue cs).seed = s.seed := by rw [State.issue_frame]
@[simp] theorem State.issue_outLevel (s : State) (cs : List Commit) : (s.issue cs).outLevel = s.outLevel := by rw [State.issue_frame]
@[simp] theorem State.issue_rx (s : State) (cs : List Commit) : (s.issue cs).rx = s.rx := by rw [State.issue_frame]
@[simp] theorem State.issue_inbox (s : State) (cs : List Commit) : (s.issue cs).inbox = s.inbox := by rw [State.issue_frame]
@[simp] theorem State.issue_build (s : State) (cs : List Commit) : (s.issue cs).build = s.build := by rw [State.issue_frame]

theorem State.issue_whole (s : State) (cs : List Commit) : s.Whole (s.issue cs) := by
  intro h; rw [State.issue_message h]; simp

theorem State.issue_nil {s : State} (h : s.pending = []) : s.issue [] = s := by
  unfold State.issue
  obtain ⟨pool, cv, drum, seed, out, rx, inbox, pending, build⟩ := s
  simp only at h; subst h
  split <;> rfl

@[simp] theorem Voice.freed_freed (v : Voice) (b : Build) : (v.freed b).freed b = v.freed b := rfl

theorem Voice.releasedTo_freed (v : Voice) (b : Build) : v.ReleasedTo b (v.freed b) := ⟨rfl, rfl, rfl, rfl, rfl, rfl, rfl⟩

theorem Voice.freed_fits {b : Build} {v : Voice} (h : v.Fits b.cw) : (v.freed b).Fits b.cw := by
  have h0 := Nat.two_pow_pos b.cw
  exact ⟨Nat.sub_lt h0 Nat.one_pos, Nat.sub_lt h0 Nat.one_pos, h.2.2⟩

/-- A new voice's periods are of `CW` bits, since the half-periods of the table are below `2^(CW-1)` (R9). -/
theorem Voice.allocated_fits {b : Build} (hb : b.Fits) (ch : Channel) (note : BitVec 7) :
    (Voice.allocated b ch note).Fits b.cw := by
  have h : noteHalf b note < 2 ^ (b.cw - 1) := hb.2.1 ⟨note.toNat, note.isLt⟩
  have hp : 2 ^ b.cw = 2 * 2 ^ (b.cw - 1) := by rw [← Nat.pow_succ']; congr 1; have := hb.1; omega
  refine ⟨?_, ?_, Nat.two_pow_pos _⟩
  · show noteHalf b note < 2 ^ b.cw
    omega
  · show 2 * noteHalf b note < 2 ^ b.cw
    omega

theorem State.freeVoice_pool_getElem (s : State) (i j : VoiceIx) :
    (s.freeVoice i).pool[j] = if i = j then s.pool[j].freed s.build else s.pool[j] := by
  have h : ((s.freeVoice i).pool[j] : Voice) = if (i : Nat) = j then s.pool[i].freed s.build else s.pool[j] := by
    simp only [State.freeVoice_pool, Fin.getElem_fin, Vector.getElem_set]
  rw [h]
  by_cases e : i = j
  · subst e; simp
  · rw [if_neg e, if_neg (fun h' => e (Fin.ext h'))]

/-- Freeing the voices of a list one after another frees exactly those voices, and changes nothing else. -/
theorem State.foldl_freeVoice (l : List VoiceIx) (s : State) :
    (l.map Commit.freeVoice).foldl State.applyCommit s =
      { s with pool := Vector.ofFn fun i => if i ∈ l then s.pool[i].freed s.build else s.pool[i] } := by
  induction l generalizing s with
  | nil =>
    obtain ⟨pool, cv, drum, seed, out, rx, inbox, pending, build⟩ := s
    simp only [List.map_nil, List.foldl_nil, List.not_mem_nil, if_false, State.mk.injEq, and_true]
    ext i hi
    simp
  | cons a l ih =>
    rw [List.map_cons, List.foldl_cons, show State.applyCommit s (.freeVoice a) = s.freeVoice a from rfl, ih]
    have hp : (Vector.ofFn fun i : VoiceIx => if i ∈ l then (s.freeVoice a).pool[i].freed s.build else (s.freeVoice a).pool[i])
        = Vector.ofFn fun i : VoiceIx => if i ∈ a :: l then s.pool[i].freed s.build else s.pool[i] := by
      congr 1; funext i
      rw [State.freeVoice_pool_getElem]
      by_cases h1 : a = i <;> by_cases h2 : i ∈ l <;> simp [h1, h2, Ne.symm]
    rw [State.freeVoice_build, hp]; rfl

theorem State.mem_slots (s : State) (p : Voice → Bool) (i : VoiceIx) : i ∈ s.slots p ↔ p s.pool[i] = true := by
  simp [State.slots]

theorem State.freeing_drain {s : State} (h : s.pending = []) (p : Voice → Bool) :
    (s.issue ((s.slots p).map .freeVoice)).drain =
      { s with pool := Vector.ofFn fun i => if p s.pool[i] then s.pool[i].freed s.build else s.pool[i] } := by
  rw [State.issue_drain, State.drain, h, List.nil_append]
  have := State.foldl_freeVoice (s.slots p) { s with pending := [] }
  simp only [State.mem_slots] at this
  rw [this, ← h]

/-- `release` once all its commits are made (R132). -/
theorem State.release_drain {s : State} (h : s.pending = []) (ch : Channel) (note : Byte) :
    (s.release ch note).drain =
      { s with pool := Vector.ofFn fun i => if s.pool[i].holds ch note then s.pool[i].freed s.build else s.pool[i] } :=
  State.freeing_drain h _

/-- `release_channel` once all its commits are made (R133). -/
theorem State.releaseChannel_drain {s : State} (h : s.pending = []) (ch : Channel) :
    (s.releaseChannel ch).drain =
      { s with pool := Vector.ofFn fun i => if s.pool[i].onChannel ch then s.pool[i].freed s.build else s.pool[i] } :=
  State.freeing_drain h _

/-- Releasing what no voice holds changes nothing, at either granularity (R132). -/
theorem State.issue_slots_nil {s : State} (h : s.pending = []) {p : Voice → Bool} (hp : ∀ i : VoiceIx, p s.pool[i] = false) :
    s.issue ((s.slots p).map .freeVoice) = s := by
  have : s.slots p = [] := List.filter_eq_nil_iff.2 fun i _ => by rw [hp i]; simp
  rw [this]; exact State.issue_nil h

/-- The volume write of a Control Change once its commits are made (R189). -/
theorem State.writeVolume_drain {s : State} (h : s.pending = []) (ch : Channel) (v : Volume) :
    (s.writeVolume ch v).drain =
      { s with cv := s.cv.set ch.toNat v ch.isLt, drum := { s.drum with chvol := if ch = drumChannel then v else s.drum.chvol } } := by
  rw [State.writeVolume, State.issue_drain, State.drain, h]
  obtain ⟨pool, cv, drum, seed, out, rx, inbox, pending, build⟩ := s
  simp only at h; subst h
  by_cases hc : ch = drumChannel
  · simp only [hc, if_true]; rfl
  · simp only [hc, if_false]; rfl

theorem Voice.holds_iff (v : Voice) (ch : Channel) (note : Byte) :
    v.holds ch note = true ↔ v.bound = true ∧ v.ch = ch ∧ v.note = note := by
  simp [Voice.holds, and_assoc]

theorem Voice.onChannel_iff (v : Voice) (ch : Channel) : v.onChannel ch = true ↔ v.bound = true ∧ v.ch = ch := by
  simp [Voice.onChannel]

/-- `find` (R130). -/
theorem State.find_iff (s : State) (ch : Channel) (note : Byte) :
    s.find ch note = true ↔ ∃ i : VoiceIx, s.pool[i].bound = true ∧ s.pool[i].ch = ch ∧ s.pool[i].note = note := by
  simp [State.find, Voice.holds_iff]

theorem State.find_eq_false_iff (s : State) (ch : Channel) (note : Byte) :
    s.find ch note = false ↔ ∀ i : VoiceIx, s.pool[i].holds ch note = false := by
  simp [State.find]

/-- The scan stops at the lowest free slot (R131). -/
theorem State.firstFree_eq_some_iff (s : State) (i : VoiceIx) :
    s.firstFree = some i ↔ s.pool[i].bound = false ∧ ∀ j : VoiceIx, j < i → s.pool[j].bound = true := by
  rw [State.firstFree, List.find?_eq_some_iff_getElem]
  simp only [List.getElem_finRange, List.length_finRange, Bool.not_eq_true', Bool.not_not]
  constructor
  · rintro ⟨h, k, hk, rfl, hj⟩
    exact ⟨h, fun j hlt => hj j.val hlt⟩
  · rintro ⟨h, hj⟩
    exact ⟨h, i.val, i.isLt, rfl, fun j hlt => hj ⟨j, by omega⟩ hlt⟩

theorem State.firstFree_eq_none_iff (s : State) : s.firstFree = none ↔ ∀ i : VoiceIx, s.pool[i].bound = true := by
  simp [State.firstFree]

theorem State.allocate_of_free {s : State} {i : VoiceIx} (h : s.firstFree = some i) (ch : Channel) (note : BitVec 7) :
    s.allocate ch note = (s.setVoice i (Voice.allocated s.build ch note), some i) := by
  simp [State.allocate, h]

/-- With every slot bound the note is dropped (R131). -/
theorem State.allocate_of_full {s : State} (h : s.firstFree = none) (ch : Channel) (note : BitVec 7) :
    s.allocate ch note = (s, none) := by
  simp [State.allocate, h]

theorem State.setVoice_pool_getElem (s : State) (i j : VoiceIx) (v : Voice) :
    (s.setVoice i v).pool[j] = if i = j then v else s.pool[j] := by
  have h : ((s.setVoice i v).pool[j] : Voice) = if (i : Nat) = j then v else s.pool[j] := by
    simp only [State.setVoice_pool, Fin.getElem_fin, Vector.getElem_set]
  rw [h]
  by_cases e : i = j
  · subst e; simp
  · rw [if_neg e, if_neg (fun h' => e (Fin.ext h'))]

end Sys2Proof.Machine
end

