-- ==== Sys2Proof/Laws/Decode.lean ====
section
/-! SUPPORT. The small lemmas of the operand forms and of the decoder's three message lengths. -/

namespace Sys2Proof.Machine

/-- An addition stays within `CW` bits (R39). -/
theorem addMod_lt (b : Config.Build) (x y : Nat) : addMod b x y < 2 ^ b.cw := Nat.mod_lt _ (Nat.two_pow_pos _)

/-- An addition that stays within `CW` bits is the plain sum (R39). -/
theorem addMod_of_lt {b : Config.Build} {x y : Nat} (h : x + y < 2 ^ b.cw) : addMod b x y = x + y := Nat.mod_eq_of_lt h

@[simp] theorem statusOp_statusByte (op : BitVec 4) (ch : Channel) : statusOp (statusByte op ch) = op := by
  revert op ch; decide

@[simp] theorem statusChannel_statusByte (op : BitVec 4) (ch : Channel) : statusChannel (statusByte op ch) = ch := by
  revert op ch; decide

/-- A status byte is its two nibbles (R91). -/
@[simp] theorem statusByte_eta (b : Byte) : statusByte (statusOp b) (statusChannel b) = b := by
  revert b; decide

@[simp] theorem statusByte_statusChannel_eq_iff (op : BitVec 4) (b : Byte) :
    statusByte op (statusChannel b) = b ↔ statusOp b = op :=
  ⟨fun h => by rw [← h, statusOp_statusByte], fun h => by rw [← h]; exact statusByte_eta b⟩

theorem messageLength_eq_three_iff (b : Byte) :
    messageLength b = 3 ↔ statusOp b = 0x8 ∨ statusOp b = 0x9 ∨ statusOp b = 0xB := by
  unfold messageLength; split
  · simp_all
  · split <;> simp_all

theorem messageLength_eq_two_iff (b : Byte) : messageLength b = 2 ↔ statusOp b = 0xC := by
  revert b; decide

theorem messageLength_cases (b : Byte) : messageLength b = 3 ∨ messageLength b = 2 ∨ messageLength b = 1 := by
  unfold messageLength; split
  · exact .inl rfl
  · split
    · exact .inr (.inl rfl)
    · exact .inr (.inr rfl)

/-- A byte that begins a one-byte item is below 0x80, or has one of the four unrouted nibbles (R105). -/
theorem messageLength_eq_one_iff (b : Byte) :
    messageLength b = 1 ↔
      b.msb = false ∨ statusOp b = 0xA ∨ statusOp b = 0xD ∨ statusOp b = 0xE ∨ statusOp b = 0xF := by
  revert b; decide

/-- No controller is in both lists (R97). -/
theorem isVolumeController_not_reset (c : Byte) : isVolumeController c = true → isResetController c = false := by
  revert c; decide

end Sys2Proof.Machine

namespace Sys2Proof

open Machine

theorem decode_three {b : Byte} (h : messageLength b = 3) (d1 d2 : Byte) (rest : List Byte) :
    decode (b :: d1 :: d2 :: rest) = .instr (decodeThree b d1 d2) rest := by
  simp [decode, h]

theorem decode_two {b : Byte} (h : messageLength b = 2) (d1 : Byte) (rest : List Byte) :
    decode (b :: d1 :: rest) = .instr (.pc (statusChannel b) d1) rest := by
  simp [decode, h]

theorem decode_one {b : Byte} (h : messageLength b = 1) (rest : List Byte) :
    decode (b :: rest) = .instr (decodeOne b) rest := by
  simp [decode, h]

/-- The shapes of a byte string that begins with a message. -/
theorem decode_cases {bytes : List Byte} {i : Instr} {rest : List Byte} (h : decode bytes = .instr i rest) :
    (∃ b d1 d2, messageLength b = 3 ∧ bytes = b :: d1 :: d2 :: rest ∧ i = decodeThree b d1 d2) ∨
      (∃ b d1, messageLength b = 2 ∧ bytes = b :: d1 :: rest ∧ i = .pc (statusChannel b) d1) ∨
      (∃ b, messageLength b = 1 ∧ bytes = b :: rest ∧ i = decodeOne b) := by
  match bytes with
  | [] => cases h
  | b :: tail =>
    rcases messageLength_cases b with hl | hl | hl
    · match tail with
      | [] => simp [decode, hl] at h
      | [_] => simp [decode, hl] at h
      | d1 :: d2 :: rest' =>
        rw [decode_three hl] at h; cases h; exact .inl ⟨b, d1, d2, hl, rfl, rfl⟩
    · match tail with
      | [] => simp [decode, hl] at h
      | d1 :: rest' => rw [decode_two hl] at h; cases h; exact .inr (.inl ⟨b, d1, hl, rfl, rfl⟩)
    · rw [decode_one hl] at h; cases h; exact .inr (.inr ⟨b, hl, rfl, rfl⟩)

end Sys2Proof
end

