-- ==== Sys2Proof/Laws/NoiseDrum.lean ====
section
/-! SUPPORT. What each step of a NoiseDrum tick can change (42_noise_drum.md R153 to R160). -/

namespace Sys2Proof.Machine

open Config

theorem Drum.prime_of_uninitialized {d : Drum} (h : d.stage = .uninitialized) (g : Segment) :
    d.prime g =
      { d with tonePeriod := g.tonePeriod, toneHalf := g.tonePeriod >>> 1, noisePeriod := g.noisePeriod, envElapsed := 0,
               toneSweepAcc := 0, noiseSweepAcc := 0, stage := .running } := by
  simp [Drum.prime, h]

theorem Drum.prime_of_running {d : Drum} (h : d.stage = .running) (g : Segment) : d.prime g = d := by
  simp [Drum.prime, h]

/-- Priming leaves the position's program and segment, the phases, the noise bit and the volume (R154, R32). -/
theorem Drum.prime_frame (g : Segment) (d : Drum) :
    (d.prime g).prog = d.prog ∧ (d.prime g).seg = d.seg ∧ (d.prime g).tonePhase = d.tonePhase ∧
      (d.prime g).noisePhase = d.noisePhase ∧ (d.prime g).noiseBit = d.noiseBit ∧ (d.prime g).chvol = d.chvol := by
  unfold Drum.prime; split <;> exact ⟨rfl, rfl, rfl, rfl, rfl, rfl⟩

theorem Drum.prime_stage {d : Drum} (h : d.stage ≠ .finished) (g : Segment) : (d.prime g).stage = .running := by
  unfold Drum.prime; split
  · rfl
  · cases hs : d.stage <;> simp_all

/-- The tone path changes only the tone's own fields (R156). -/
theorem Drum.tonePath_frame (b : Build) (g : Segment) (d : Drum) :
    (d.tonePath b g).1 =
      { d with tonePeriod := (d.tonePath b g).1.tonePeriod, toneHalf := (d.tonePath b g).1.toneHalf,
               toneSweepAcc := (d.tonePath b g).1.toneSweepAcc, tonePhase := (d.tonePath b g).1.tonePhase } := by
  unfold Drum.tonePath; split
  · unfold Drum.tonePhaseStep Drum.toneSweep; dsimp only; split <;> rfl
  · rfl

/-- The tone sweep keeps the half-period the half of the period (R156). -/
theorem Drum.tonePath_halved {b : Build} {g : Segment} {d : Drum} (h : d.toneHalf = d.tonePeriod >>> 1) :
    (d.tonePath b g).1.toneHalf = (d.tonePath b g).1.tonePeriod >>> 1 := by
  unfold Drum.tonePath; split
  · unfold Drum.tonePhaseStep Drum.toneSweep; dsimp only; split
    · rfl
    · exact h
  · exact h

/-- The noise path changes only the noise's own fields (R157). -/
theorem Drum.noisePath_frame (b : Build) (g : Segment) (d : Drum) (seed : Seed) :
    (d.noisePath b g seed).1 =
      { d with noisePeriod := (d.noisePath b g seed).1.noisePeriod, noiseSweepAcc := (d.noisePath b g seed).1.noiseSweepAcc,
               noisePhase := (d.noisePath b g seed).1.noisePhase, noiseBit := (d.noisePath b g seed).1.noiseBit } := by
  unfold Drum.noisePath; split
  · unfold Drum.noiseSample Drum.noiseSweep; dsimp only; split <;> split <;> rfl
  · rfl

/-- The noise path draws at most once (R157, R124). -/
theorem Drum.noisePath_seed (b : Build) (g : Segment) (d : Drum) (seed : Seed) :
    (d.noisePath b g seed).2 = seed ∨ noiseEnabled g = true ∧ (d.noisePath b g seed).2 = prngStep seed := by
  unfold Drum.noisePath; split
  · rename_i h
    unfold Drum.noiseSample; dsimp only; split
    · exact .inr ⟨h, rfl⟩
    · exact .inl rfl
  · exact .inl rfl

theorem Drum.advanceSegment_frame (p : Program) (d : Drum) :
    d.advanceSegment p = { d with seg := (d.advanceSegment p).seg, stage := (d.advanceSegment p).stage } := by
  unfold Drum.advanceSegment; split <;> rfl

theorem Drum.advancesTo_advanceSegment (p : Program) (d : Drum) : d.AdvancesTo p (d.advanceSegment p) := by
  unfold Drum.AdvancesTo Drum.advanceSegment programLength; split <;> exact ⟨rfl, rfl, rfl⟩

/-- Step 6 changes at most the position. -/
theorem Drum.combine_frame (b : Build) (p : Program) (g : Segment) (d : Drum) :
    (d.combine b p g).1 = { d with seg := (d.combine b p g).1.seg, stage := (d.combine b p g).1.stage } := by
  unfold Drum.combine; split
  · split
    · exact Drum.advanceSegment_frame p d
    · rfl
  · rfl

/-- Step 6 advances only on a vote of 1 past the segment's end (R158). -/
theorem Drum.combine_position (b : Build) (p : Program) (g : Segment) (d : Drum) :
    (d.combine b p g).1 = d ∨
      noiseVote g d = true ∧ segmentOver g d.envElapsed = true ∧ (d.combine b p g).1 = d.advanceSegment p := by
  unfold Drum.combine; split
  · rename_i hv; dsimp only; split
    · rename_i ho; exact .inr ⟨hv, ho, rfl⟩
    · exact .inl rfl
  · exact .inl rfl

/-- The record after priming, the elapsed counter and the tone path. -/
def Drum.toned (b : Build) (g : Segment) (d : Drum) : Drum := (((d.prime g).elapse b).tonePath b g).1

/-- The tone path's vote on this tick. -/
def Drum.tonedHigh (b : Build) (g : Segment) (d : Drum) : Bool := (((d.prime g).elapse b).tonePath b g).2

theorem Drum.runSegment_low {b : Build} {p : Program} {g : Segment} {d : Drum} (h : d.tonedHigh b g = false) (seed : Seed) :
    d.runSegment b p g seed = { drum := d.toned b g, seed := seed, amp := 0 } := by
  unfold Drum.tonedHigh at h; simp [Drum.runSegment, Drum.toned, h]

theorem Drum.runSegment_high {b : Build} {p : Program} {g : Segment} {d : Drum} (h : d.tonedHigh b g = true) (seed : Seed) :
    d.runSegment b p g seed =
      { drum := (((d.toned b g).noisePath b g seed).1.combine b p g).1, seed := ((d.toned b g).noisePath b g seed).2,
        amp := (((d.toned b g).noisePath b g seed).1.combine b p g).2 } := by
  unfold Drum.tonedHigh at h; simp [Drum.runSegment, Drum.toned, h]

theorem Drum.toned_prog (b : Build) (g : Segment) (d : Drum) : (d.toned b g).prog = d.prog := by
  rw [Drum.toned, Drum.tonePath_frame]; exact (Drum.prime_frame g d).1

theorem Drum.toned_seg (b : Build) (g : Segment) (d : Drum) : (d.toned b g).seg = d.seg := by
  rw [Drum.toned, Drum.tonePath_frame]; exact (Drum.prime_frame g d).2.1

theorem Drum.toned_chvol (b : Build) (g : Segment) (d : Drum) : (d.toned b g).chvol = d.chvol := by
  rw [Drum.toned, Drum.tonePath_frame]; exact (Drum.prime_frame g d).2.2.2.2.2

theorem Drum.toned_stage {d : Drum} (h : d.stage ≠ .finished) (b : Build) (g : Segment) : (d.toned b g).stage = .running := by
  rw [Drum.toned, Drum.tonePath_frame]; exact Drum.prime_stage h g

theorem Drum.toned_envElapsed (b : Build) (g : Segment) (d : Drum) :
    (d.toned b g).envElapsed = addMod b (d.prime g).envElapsed b.drumTimeInc := by
  rw [Drum.toned, Drum.tonePath_frame]; rfl

/-- A tick from a running or primed segment: the record that the tone and noise paths leave, advanced or not. -/
theorem Drum.runSegment_drum (b : Build) (p : Program) (g : Segment) (d : Drum) (seed : Seed) :
    ∃ e : Drum, e.prog = d.prog ∧ e.seg = d.seg ∧ e.chvol = d.chvol ∧ (d.stage ≠ .finished → e.stage = .running) ∧
      (d.toneHalf = d.tonePeriod >>> 1 ∨ d.stage = .uninitialized → e.toneHalf = e.tonePeriod >>> 1) ∧
      ((d.runSegment b p g seed).drum = e ∨ (d.runSegment b p g seed).drum = e.advanceSegment p) := by
  have hh : d.toneHalf = d.tonePeriod >>> 1 ∨ d.stage = .uninitialized →
      (d.toned b g).toneHalf = (d.toned b g).tonePeriod >>> 1 := by
    intro h
    refine Drum.tonePath_halved (d := (d.prime g).elapse b) ?_
    rcases h with h | h
    · change (d.prime g).toneHalf = (d.prime g).tonePeriod >>> 1
      unfold Drum.prime; split
      · rfl
      · exact h
    · rw [Drum.prime_of_uninitialized h]; rfl
  cases ht : d.tonedHigh b g with
  | false =>
    rw [Drum.runSegment_low ht]
    exact ⟨d.toned b g, d.toned_prog b g, d.toned_seg b g, d.toned_chvol b g, fun h => Drum.toned_stage h b g, hh, .inl rfl⟩
  | true =>
    rw [Drum.runSegment_high ht]
    refine ⟨((d.toned b g).noisePath b g seed).1, ?_⟩
    rw [Drum.noisePath_frame]
    refine ⟨d.toned_prog b g, d.toned_seg b g, d.toned_chvol b g, fun h => Drum.toned_stage h b g, hh, ?_⟩
    rw [← Drum.noisePath_frame]
    rcases Drum.combine_position b p g ((d.toned b g).noisePath b g seed).1 with h | h
    · exact .inl h
    · exact .inr h.2.2

/-- What `drum_tick` can answer (R153). -/
theorem drumTick_cases {b : Build} {d : Drum} {seed : Seed} {o : DrumOut} (h : drumTick b d seed = some o) :
    (d.stage = .finished ∧ o = { drum := d, seed := seed, amp := 0 }) ∨
      (d.stage ≠ .finished ∧ ∃ p g, d.current b = some (p, g) ∧ o = d.runSegment b p g seed) := by
  unfold drumTick at h; split at h
  · rename_i hs; cases h; exact .inl ⟨hs, rfl⟩
  · rename_i hs; split at h
    · cases h
    · rename_i p g hc; cases h; exact .inr ⟨hs, p, g, hc, rfl⟩

/-- The current segment: that of the active program at the segment index (R33). -/
theorem Drum.current_eq_some_iff {b : Build} {d : Drum} {p : Program} {g : Segment} :
    d.current b = some (p, g) ↔ ∃ id : ProgramId, d.prog = some id ∧ p = b.program[id] ∧ segmentAt p d.seg = some g := by
  unfold Drum.current
  cases hp : d.prog with
  | none => simp
  | some id =>
    dsimp only
    cases hs : segmentAt b.program[id] d.seg with
    | none => simp only [reduceCtorEq, false_iff]; rintro ⟨id', h, rfl, hg⟩; cases h; rw [hs] at hg; cases hg
    | some g' =>
      simp only [Option.some.injEq, Prod.mk.injEq]
      constructor
      · rintro ⟨rfl, rfl⟩; exact ⟨id, rfl, rfl, hs⟩
      · rintro ⟨id', rfl, rfl, hg⟩; rw [hs] at hg; exact ⟨rfl, by cases hg; rfl⟩

theorem segmentAt_isSome_iff (p : Program) (k : Nat) : (segmentAt p k).isSome = true ↔ k < programLength p := by
  simp [segmentAt, programLength]

/-- In range, every tick of the NoiseDrum answers (R73). -/
theorem drumTick_isSome {b : Build} {d : Drum} (h : d.Ok b) (seed : Seed) : ∃ o, drumTick b d seed = some o := by
  unfold drumTick; split
  · exact ⟨_, rfl⟩
  · rename_i hs
    obtain ⟨id, hp⟩ := Option.ne_none_iff_exists'.1 (h.active.resolve_left hs)
    obtain ⟨g, hg⟩ := Option.isSome_iff_exists.1 ((segmentAt_isSome_iff _ _).2 (h.inRange id hp))
    rw [Drum.current_eq_some_iff.2 ⟨id, hp, rfl, hg⟩]
    exact ⟨_, rfl⟩

/-- The current segment's counts are of `CW` bits when the tables fit (R100). -/
theorem Drum.current_fits {b : Build} {d : Drum} {p : Program} {g : Segment} (hb : b.Fits) (h : d.current b = some (p, g)) :
    g.Fits b.cw := by
  obtain ⟨id, -, rfl, hg⟩ := Drum.current_eq_some_iff.1 h
  exact hb.2.2 id g (List.mem_of_getElem? hg)

theorem Drum.prime_fits {cw : Nat} {g : Segment} {d : Drum} (hg : g.Fits cw) (hd : d.Fits cw) : (d.prime g).Fits cw := by
  unfold Drum.prime; split
  · obtain ⟨-, hp, hn, -⟩ := hg
    obtain ⟨-, -, -, h1, -, h2, -, -⟩ := hd
    have h0 := Nat.two_pow_pos cw
    exact ⟨hp, Nat.lt_of_le_of_lt (Nat.shiftRight_le _ _) hp, hn, h1, h0, h2, h0, h0⟩
  · exact hd

theorem Drum.elapse_fits {b : Build} {d : Drum} (hd : d.Fits b.cw) : (d.elapse b).Fits b.cw := by
  obtain ⟨h1, h2, h3, h4, h5, h6, h7, -⟩ := hd
  exact ⟨h1, h2, h3, h4, h5, h6, h7, addMod_lt b _ _⟩

theorem Drum.toneSweep_fits {b : Build} {g : Segment} {d : Drum} (hd : d.Fits b.cw) : (d.toneSweep b g).Fits b.cw := by
  obtain ⟨h1, h2, h3, h4, -, h6, h7, h8⟩ := hd
  unfold Drum.toneSweep; dsimp only; split
  · exact ⟨addMod_lt b _ _, Nat.lt_of_le_of_lt (Nat.shiftRight_le _ _) (addMod_lt b _ _), h3, h4,
      Nat.lt_of_le_of_lt (Nat.sub_le _ _) (addMod_lt b _ _), h6, h7, h8⟩
  · exact ⟨h1, h2, h3, h4, addMod_lt b _ _, h6, h7, h8⟩

theorem Drum.tonePath_fits {b : Build} {g : Segment} {d : Drum} (hd : d.Fits b.cw) : (d.tonePath b g).1.Fits b.cw := by
  unfold Drum.tonePath; split
  · obtain ⟨h1, h2, h3, -, h5, h6, h7, h8⟩ := Drum.toneSweep_fits (g := g) hd
    refine ⟨h1, h2, h3, ?_, h5, h6, h7, h8⟩
    have hp := addMod_lt b (d.toneSweep b g).tonePhase b.drumPhaseInc
    unfold Drum.tonePhaseStep; dsimp only; split
    · exact hp
    · split
      · exact Nat.lt_of_le_of_lt (Nat.sub_le _ _) hp
      · exact hp
  · exact hd

theorem Drum.noiseSweep_fits {b : Build} {g : Segment} {d : Drum} (hd : d.Fits b.cw) : (d.noiseSweep b g).Fits b.cw := by
  obtain ⟨h1, h2, h3, h4, h5, h6, -, h8⟩ := hd
  unfold Drum.noiseSweep; dsimp only; split
  · exact ⟨h1, h2, addMod_lt b _ _, h4, h5, h6, Nat.lt_of_le_of_lt (Nat.sub_le _ _) (addMod_lt b _ _), h8⟩
  · exact ⟨h1, h2, h3, h4, h5, h6, addMod_lt b _ _, h8⟩

theorem Drum.noisePath_fits {b : Build} {g : Segment} {d : Drum} (hd : d.Fits b.cw) (seed : Seed) :
    (d.noisePath b g seed).1.Fits b.cw := by
  unfold Drum.noisePath; split
  · obtain ⟨h1, h2, h3, h4, h5, -, h7, h8⟩ := Drum.noiseSweep_fits (g := g) hd
    have hp := addMod_lt b (d.noiseSweep b g).noisePhase b.drumPhaseInc
    unfold Drum.noiseSample; dsimp only; split
    · exact ⟨h1, h2, h3, h4, h5, Nat.lt_of_le_of_lt (Nat.sub_le _ _) hp, h7, h8⟩
    · exact ⟨h1, h2, h3, h4, h5, hp, h7, h8⟩
  · exact hd

/-- A tick keeps the NoiseDrum's counts within `CW` bits when the tables fit (R39). -/
theorem drumTick_fits {b : Build} {d : Drum} {seed : Seed} {o : DrumOut} (hb : b.Fits) (hd : d.Fits b.cw)
    (h : drumTick b d seed = some o) : o.drum.Fits b.cw := by
  rcases drumTick_cases h with ⟨-, rfl⟩ | ⟨-, p, g, hc, rfl⟩
  · exact hd
  · have ht : (d.toned b g).Fits b.cw := Drum.tonePath_fits (Drum.elapse_fits (Drum.prime_fits (Drum.current_fits hb hc) hd))
    cases hv : d.tonedHigh b g with
    | false => rw [Drum.runSegment_low hv]; exact ht
    | true =>
      rw [Drum.runSegment_high hv]; dsimp only; rw [Drum.combine_frame]
      exact Drum.noisePath_fits ht seed

end Sys2Proof.Machine
end

