-- ==== Sys2Proof/Laws/PerInstr.lean ====
section
/-! SUPPORT. Statements made per instruction: the length of its encoding is the one its status byte announces (R90). -/

namespace Sys2Proof.Laws.EncodedLength

open Machine

/-- The encoding of a well-formed instruction begins with a byte that announces exactly its length. -/
def Statement (i : Instr) : Prop :=
  i.wellFormed = true → ∃ b rest, encode i = b :: rest ∧ (encode i).length = messageLength b

theorem of_statusByte {i : Instr} {op : BitVec 4} {ch : Channel} {rest : List Byte}
    (h : encode i = statusByte op ch :: rest) (hl : rest.length + 1 = messageLength (statusByte op ch)) : Statement i :=
  fun _ => ⟨_, rest, h, by rw [h, List.length_cons, hl]⟩

theorem noteOff (ch : Channel) (note velocity : Byte) : Statement (.noteOff ch note velocity) :=
  of_statusByte rfl (by simp [messageLength])

theorem noteOnDrum (note velocity : Byte) : Statement (.noteOnDrum note velocity) :=
  of_statusByte rfl (by simp [messageLength])

theorem noteOn (ch : Channel) (note velocity : Byte) : Statement (.noteOn ch note velocity) :=
  of_statusByte rfl (by simp [messageLength])

theorem noteOnVel0 (ch : Channel) (note : Byte) : Statement (.noteOnVel0 ch note) :=
  of_statusByte rfl (by simp [messageLength])

theorem ccVolume (ch : Channel) (controller value : Byte) : Statement (.ccVolume ch controller value) :=
  of_statusByte rfl (by simp [messageLength])

theorem ccChannelReset (ch : Channel) (controller value : Byte) : Statement (.ccChannelReset ch controller value) :=
  of_statusByte rfl (by simp [messageLength])

theorem ccNop (ch : Channel) (controller value : Byte) : Statement (.ccNop ch controller value) :=
  of_statusByte rfl (by simp [messageLength])

theorem pc (ch : Channel) (program : Byte) : Statement (.pc ch program) :=
  of_statusByte rfl (by simp [messageLength])

theorem skipStatusA (low : BitVec 4) : Statement (.skipStatusA low) := of_statusByte rfl (by simp [messageLength])

theorem skipStatusD (low : BitVec 4) : Statement (.skipStatusD low) := of_statusByte rfl (by simp [messageLength])

theorem skipStatusE (low : BitVec 4) : Statement (.skipStatusE low) := of_statusByte rfl (by simp [messageLength])

theorem skipStatusF (low : BitVec 4) : Statement (.skipStatusF low) := of_statusByte rfl (by simp [messageLength])

theorem skipData (data : BitVec 7) : Statement (.skipData data) :=
  fun _ => ⟨_, [], rfl, by revert data; decide⟩

end Sys2Proof.Laws.EncodedLength
end

