-- ==== Sys2Proof/Laws/Step.lean ====
section
/-! SUPPORT. Everything a message and a step can do: the inversions that claims about all of them cite. -/

namespace Sys2Proof.Machine

open Config

/-- The state after a tick, from what the NoiseDrum answered (R220). -/
def State.ticked (s : State) (o : DrumOut) : State :=
  { s with pool := tickPool s.pool s.build, drum := o.drum, seed := o.seed,
           outLevel := mixLevel (s.voiceTotal + o.amp.toNat) }

@[simp] theorem State.ticked_pool (s : State) (o : DrumOut) : (s.ticked o).pool = tickPool s.pool s.build := by unfold State.ticked; rfl
@[simp] theorem State.ticked_cv (s : State) (o : DrumOut) : (s.ticked o).cv = s.cv := by unfold State.ticked; rfl
@[simp] theorem State.ticked_drum (s : State) (o : DrumOut) : (s.ticked o).drum = o.drum := by unfold State.ticked; rfl
@[simp] theorem State.ticked_seed (s : State) (o : DrumOut) : (s.ticked o).seed = o.seed := by unfold State.ticked; rfl
@[simp] theorem State.ticked_outLevel (s : State) (o : DrumOut) : (s.ticked o).outLevel = mixLevel (s.voiceTotal + o.amp.toNat) := by unfold State.ticked; rfl
@[simp] theorem State.ticked_rx (s : State) (o : DrumOut) : (s.ticked o).rx = s.rx := by unfold State.ticked; rfl
@[simp] theorem State.ticked_inbox (s : State) (o : DrumOut) : (s.ticked o).inbox = s.inbox := by unfold State.ticked; rfl
@[simp] theorem State.ticked_pending (s : State) (o : DrumOut) : (s.ticked o).pending = s.pending := by unfold State.ticked; rfl
@[simp] theorem State.ticked_build (s : State) (o : DrumOut) : (s.ticked o).build = s.build := by unfold State.ticked; rfl

theorem State.tick_eq_next_iff {s t : State} :
    s.tick = .next t ↔ ∃ o, drumTick s.build s.drum s.seed = some o ∧ t = s.ticked o := by
  unfold State.tick
  cases h : drumTick s.build s.drum s.seed with
  | none => simp
  | some o => simp [State.ticked, eq_comm]

/-- Everything a message can do when it answers a next state. -/
theorem exec_cases {i : Instr} {s t : State} (h : exec i s = .next t) :
    t = s ∨ (∃ p, t = s.issue ((s.slots p).map .freeVoice)) ∨ (∃ ch v, t = s.writeVolume ch v) ∨
      (∃ id, t = s.trigger id) ∨
      (∃ ch note velocity, i = .noteOn ch note velocity ∧ s.find ch note = false ∧ note.toNat ≤ 127 ∧
        t = (s.allocate ch (note.setWidth 7)).1) := by
  cases i with
  | noteOff ch note velocity => cases h; exact .inr (.inl ⟨_, rfl⟩)
  | noteOnVel0 ch note => cases h; exact .inr (.inl ⟨_, rfl⟩)
  | ccChannelReset ch controller value => cases h; exact .inr (.inl ⟨_, rfl⟩)
  | pc ch program => cases h; exact .inr (.inl ⟨_, rfl⟩)
  | noteOnDrum note velocity =>
    cases h; cases drumProgram s.build note with
    | none => exact .inl rfl
    | some id => exact .inr (.inr (.inr (.inl ⟨id, rfl⟩)))
  | noteOn ch note velocity =>
    simp only [exec, execNoteOn] at h
    split at h
    · cases h; exact .inl rfl
    · rename_i hf
      split at h
      · cases h
      · rename_i hn; cases h
        exact .inr (.inr (.inr (.inr ⟨ch, note, velocity, rfl, by simpa using hf, by omega, rfl⟩)))
  | ccVolume ch controller value =>
    simp only [exec, execCcVolume] at h
    split at h
    · cases h
    · cases h; exact .inr (.inr (.inl ⟨_, _, rfl⟩))
  | ccNop ch controller value => cases h; exact .inl rfl
  | skipStatusA low => cases h; exact .inl rfl
  | skipStatusD low => cases h; exact .inl rfl
  | skipStatusE low => cases h; exact .inl rfl
  | skipStatusF low => cases h; exact .inl rfl
  | skipData data => cases h; exact .inl rfl

/-- A complete message is what the latch held and the byte. -/
theorem Rx.receive_message {rx : Rx} {b : Byte} {bytes : List Byte} (h : rx.receive b = .message bytes) :
    bytes = rx.bytes ++ [b] := by
  cases rx with
  | idle => simp only [Rx.receive] at h; split at h <;> cases h; rfl
  | haveStatus s => simp only [Rx.receive] at h; split at h <;> cases h; rfl
  | haveData1 s d1 => cases h; rfl

/-- A byte that completes no message makes the latch longer by that byte (R181, R182). -/
theorem Rx.receive_wait {rx rx' : Rx} {b : Byte} (h : rx.receive b = .wait rx') :
    (rx = .idle ∧ 1 < messageLength b ∧ rx' = .haveStatus b) ∨
      (∃ s, rx = .haveStatus s ∧ statusOp s ≠ 0xC ∧ rx' = .haveData1 s b) := by
  cases rx with
  | idle => simp only [Rx.receive] at h; split at h <;> cases h; rename_i hb; exact .inl ⟨rfl, hb, rfl⟩
  | haveStatus s => simp only [Rx.receive] at h; split at h <;> cases h; rename_i hs; exact .inr ⟨s, rfl, hs, rfl⟩
  | haveData1 s d1 => cases h

theorem runMessage_eq_next {bytes : List Byte} {s t : State} (h : runMessage bytes s = .next t) :
    ∃ i, decode bytes = .instr i [] ∧ exec i s = .next t := by
  unfold runMessage at h; split at h
  · rename_i i hd; exact ⟨i, hd, h⟩
  · cases h
  · cases h

/-- Everything a step can do when it answers a next state: one of the events of R14, or a commit still to come. -/
theorem step_cases {s t : State} (h : step s = .next t) :
    ((s.inbox = [] ∨ (∃ b rest, s.inbox = .byte b :: rest) ∧ s.pending ≠ []) ∧ t = s.commitNext) ∨
      (∃ rest, s.inbox = .reset :: rest ∧ t = State.powerUp { s with inbox := rest }) ∨
      (∃ v rest, s.inbox = .seedLoad v :: rest ∧ t = State.seedLoad { s with inbox := rest } v) ∨
      (∃ rest, s.inbox = .commit :: rest ∧ t = State.commitNext { s with inbox := rest }) ∨
      (∃ rest o, s.inbox = .tick :: rest ∧ drumTick s.build s.drum s.seed = some o ∧
        t = State.ticked { s with inbox := rest } o) ∨
      (∃ b rest rx, s.inbox = .byte b :: rest ∧ s.pending = [] ∧ s.rx.receive b = .wait rx ∧
        t = { s with inbox := rest, rx := rx }) ∨
      (∃ b rest i, s.inbox = .byte b :: rest ∧ s.pending = [] ∧ decode (s.rx.bytes ++ [b]) = .instr i [] ∧
        exec i { s with inbox := rest, rx := .idle } = .next t) := by
  unfold step State.runNext at h
  split at h
  · rename_i hi; cases h; exact .inl ⟨.inl hi, rfl⟩
  · rename_i e rest hi
    cases e with
    | reset => cases h; exact .inr (.inl ⟨rest, hi, rfl⟩)
    | seedLoad v => cases h; exact .inr (.inr (.inl ⟨v, rest, hi, rfl⟩))
    | commit => cases h; exact .inr (.inr (.inr (.inl ⟨rest, hi, rfl⟩)))
    | tick =>
      obtain ⟨o, ho, rfl⟩ := State.tick_eq_next_iff.1 h
      exact .inr (.inr (.inr (.inr (.inl ⟨rest, o, hi, ho, rfl⟩))))
    | byte b =>
      simp only [State.runEvent] at h
      split at h
      · rename_i hp
        unfold State.runByte at h
        split at h
        · rename_i rx hr
          cases h; exact .inr (.inr (.inr (.inr (.inr (.inl ⟨b, rest, rx, hi, hp, hr, rfl⟩)))))
        · rename_i bytes hr
          obtain ⟨i, hd, hx⟩ := runMessage_eq_next h
          rw [Rx.receive_message hr] at hd
          exact .inr (.inr (.inr (.inr (.inr (.inr ⟨b, rest, i, hi, hp, hd, hx⟩)))))
      · rename_i hp; cases h; exact .inl ⟨.inr ⟨⟨b, rest, hi⟩, hp⟩, rfl⟩

/-- The pool after a tick, voice by voice (R135). -/
theorem tickPool_getElem (pool : Vector Voice 20) (b : Build) (i : VoiceIx) : (tickPool pool b)[i] = (pool[i].tick b).1 := by
  simp [tickPool]

/-- A tick changes only a voice's phase (R25, R41). -/
theorem Voice.tick_frame (v : Voice) (b : Build) : (v.tick b).1 = { v with phase := (v.tick b).1.phase } := by
  unfold Voice.tick; split <;> rfl

/-- A free voice is not advanced and is low (R134). -/
theorem Voice.tick_free {v : Voice} (h : v.bound = false) (b : Build) : v.tick b = (v, false) := by
  simp [Voice.tick, h]

/-- Below the half-period: high when enabled (R134). -/
theorem Voice.tick_below {v : Voice} {b : Build} (h : v.bound = true) (hp : v.advanced b < v.half) :
    v.tick b = ({ v with phase := v.advanced b }, v.en) := by
  simp [Voice.tick, h, hp, voiceHigh, toneHigh]

/-- Past the full period: one subtraction, and the wrap tick is high when enabled (R134). -/
theorem Voice.tick_past {v : Voice} {b : Build} (h : v.bound = true) (hp : ¬v.advanced b < v.half)
    (hf : v.full < v.advanced b) : v.tick b = ({ v with phase := v.advanced b - v.full }, v.en) := by
  simp [Voice.tick, h, hp, hf, voiceHigh, toneHigh]

/-- Between the two: low (R134). -/
theorem Voice.tick_between {v : Voice} {b : Build} (h : v.bound = true) (hp : ¬v.advanced b < v.half)
    (hf : ¬v.full < v.advanced b) : v.tick b = ({ v with phase := v.advanced b }, false) := by
  simp [Voice.tick, h, hp, hf, voiceHigh, toneHigh]

/-- A tick keeps a voice's counts within `CW` bits (R39). -/
theorem Voice.tick_fits {b : Build} {v : Voice} (h : v.Fits b.cw) : (v.tick b).1.Fits b.cw := by
  have hp : v.advanced b < 2 ^ b.cw := addMod_lt b _ _
  rw [Voice.tick_frame]
  refine ⟨h.1, h.2.1, ?_⟩
  unfold Voice.tick; dsimp only; split
  · dsimp only; split
    · exact hp
    · split
      · exact Nat.lt_of_le_of_lt (Nat.sub_le _ _) hp
      · exact hp
  · exact h.2.2

/-- The advance as one sum modulo 2^CW (R134). -/
theorem Voice.advanced_eq (v : Voice) (b : Build) : v.advanced b = (v.phase + b.voiceTickInc) % 2 ^ b.cw := rfl

/-- A voice's contribution by its own output bit (R221). -/
theorem State.contribution_eq (s : State) (i : VoiceIx) :
    s.contribution i =
      if s.pool[i].bound = true ∧ (s.pool[i].tick s.build).2 = true then
        voiceAmplitude s.build (s.cv[s.pool[i].ch.toNat]'(s.pool[i].ch.isLt))
      else 0 := by
  simp [State.contribution, poolBits]

theorem State.contribution_le (s : State) (i : VoiceIx) : s.contribution i ≤ 255 := by
  unfold State.contribution; split
  · exact Nat.le_of_lt_succ (BitVec.isLt _)
  · exact Nat.zero_le _

/-- The step of a state whose next event is a tick. -/
theorem step_tick {s : State} {rest : List Event} (h : s.inbox = .tick :: rest) :
    step s = State.tick { s with inbox := rest } := by
  simp only [step, State.runNext, h, State.runEvent]

theorem mixLevel_toNat (total : Nat) : (mixLevel total).toNat = min (total / 9) 255 := by
  simp only [mixLevel, mixDiv, outMax, BitVec.toNat_ofNat]
  exact Nat.mod_eq_of_lt (by omega)

end Sys2Proof.Machine
end

