-- ==== Sys2Proof/Tests/Slice0.lean ====
section
/-! SUPPORT. Tests against the spec's own vectors (95_test_vectors.md), and for each statement a state and operands that
meet its hypotheses. -/

namespace Sys2Proof.Tests

open Machine Config

/-! ## Helpers -/

/-- A segment, its fields in the order of R106. -/
def seg (dur tp np : Nat) (mask : BitVec 2) (vol : BitVec 4) (env : Nat) (ts ns nsp : Nat) : Segment :=
  { duration := dur, tonePeriod := tp, noisePeriod := np, mixMask := mask, volume := vol, envDuration := env,
    envShape := 0, toneSweepStep := ts, noiseSweepStep := ns, noiseSweepPeriod := nsp }

/-- Program 3 of T1, and programs 5 to 10. -/
def plainHit : Program := ⟨seg 2 0 0 0b11 8 0 0 0 0, []⟩

/-- The test configuration T1 of 95_test_vectors.md, Part 2. -/
def t1 : Build :=
  { cw := 32
    noteHalf := Vector.ofFn fun n => 160 - n
    voiceCurve := Vector.ofFn fun i => BitVec.ofNat 8 (8 * i)
    drumCurve := #v[0, 2, 4, 6, 8, 12, 16, 24, 32, 48, 64, 96, 128, 176, 224, 255, 255]
    program := #v[⟨seg 6 8 0 0b10 15 0 2 0 0, [seg 0 12 0 0b10 12 8 0 0 0]⟩, ⟨seg 0 0 3 0b01 10 12 0 1 5, []⟩,
      ⟨seg 10 6 2 0b00 15 0 0 0 0, []⟩, plainHit, ⟨seg 0 0 0 0b11 12 8 0 0 0, [seg 1 0 0 0b11 4 0 0 0 0]⟩,
      plainHit, plainHit, plainHit, plainHit, plainHit, plainHit]
    drumNoteMap := #v[some 0, some 0, none, some 1, none, some 2, some 3, some 4, some 5, none, some 6, some 7, none,
      some 8, some 9, none, some 10, none, none, none, none, none, none]
    voiceTickInc := 1
    drumTimeInc := 1
    drumPhaseInc := 1
    frameTime := 4
    chvolReset := 15
    seedReset := 0
    granularity := .message }

/-- "From reset" under T1. -/
def fresh : State := State.resetOf t1

/-- T1 with commits one record at a time. -/
def freshRecord : State := State.resetOf { t1 with granularity := .record }

/-- A voice as a Note On under T1 binds it, at a phase. -/
def voiceOn (ch : Channel) (note : BitVec 7) (phase : Nat) : Voice := { Voice.allocated t1 ch note with phase := phase }

/-- The state with a voice in a slot. -/
def put (s : State) (i : VoiceIx) (v : Voice) : State := s.setVoice i v

/-- Row 17 of V-DISP before its last message, and one more voice in the last slot. -/
def threeVoices (s : State) : State :=
  put (put (put s 0 (voiceOn 2 64 0)) 1 (voiceOn 2 65 57)) 19 (voiceOn 3 64 0)

/-- A NoiseDrum at a segment of a program. -/
def atSegment (id : ProgramId) (k : Nat) (stage : Stage) : Drum :=
  { Drum.reset 15 with prog := some id, seg := k, stage := stage }

/-- A value of the next state, if there is one. -/
def after {α : Type} (o : Host.Outcome State Fault Refusal) (f : State → α) : Option α :=
  match o with
  | .next s => some (f s)
  | .fault _ => none
  | .refused _ => none

/-- The refusal, if that is the outcome. -/
def refusalOf (o : Host.Outcome State Fault Refusal) : Option Refusal :=
  match o with
  | .next _ => none
  | .fault _ => none
  | .refused r => some r

/-! ## Well-formedness: each check refuses a term -/

theorem test_wf_noteOn_drum_channel : (Instr.noteOn 9 60 1).wellFormed = false := by decide
theorem test_wf_noteOn_velocity_zero : (Instr.noteOn 0 60 0).wellFormed = false := by decide
theorem test_wf_noteOnVel0_drum_channel : (Instr.noteOnVel0 9 60).wellFormed = false := by decide
theorem test_wf_ccVolume_controller : (Instr.ccVolume 0 1 0).wellFormed = false := by decide
theorem test_wf_ccChannelReset_controller : (Instr.ccChannelReset 0 122 0).wellFormed = false := by decide
theorem test_wf_ccNop_volume_controller : (Instr.ccNop 0 7 0).wellFormed = false := by decide
theorem test_wf_ccNop_reset_controller : (Instr.ccNop 0 0 0).wellFormed = false := by decide

/-! ## Decoding: words written out from R91 to R97 -/

theorem test_decode_noteOff : decode [0b1000_0011, 0b0100_0000, 0b0111_1111] = .instr (.noteOff 3 64 127) [] := by decide
theorem test_decode_noteOnDrum : decode [0b1001_1001, 0b0010_0100, 0b0000_0000] = .instr (.noteOnDrum 36 0) [] := by decide
theorem test_decode_noteOn : decode [0b1001_0001, 0b0011_1100, 0b0110_0100] = .instr (.noteOn 1 60 100) [] := by decide
theorem test_decode_noteOnVel0 : decode [0b1001_0000, 0b0011_1100, 0b0000_0000] = .instr (.noteOnVel0 0 60) [] := by decide
theorem test_decode_ccVolume : decode [0b1011_1001, 0b0000_1011, 0b0100_0111] = .instr (.ccVolume 9 11 71) [] := by decide
theorem test_decode_ccChannelReset :
    decode [0b1011_0010, 0b0111_1011, 0b0000_0000] = .instr (.ccChannelReset 2 123 0) [] := by decide
theorem test_decode_ccNop : decode [0b1011_0000, 0b1000_0000, 0b1001_0000] = .instr (.ccNop 0 128 144) [] := by decide
theorem test_decode_pc : decode [0b1100_0101, 0b1001_0000, 0b0011_1100] = .instr (.pc 5 0x90) [0x3C] := by decide
theorem test_decode_skipStatusA : decode [0b1010_0000] = .instr (.skipStatusA 0) [] := by decide
theorem test_decode_skipStatusD : decode [0b1101_0000] = .instr (.skipStatusD 0) [] := by decide
theorem test_decode_skipStatusE : decode [0b1110_0111] = .instr (.skipStatusE 7) [] := by decide
theorem test_decode_skipStatusF : decode [0b1111_1000] = .instr (.skipStatusF 8) [] := by decide
theorem test_decode_skipData : decode [0b0011_1100, 0b0110_0100] = .instr (.skipData 60) [0x64] := by decide
theorem test_decode_truncated :
    decode [0x90, 0x3C] = .reject .truncated ∧ decode [0xC0] = .reject .truncated ∧ decode [] = .reject .noByte := by decide

/-- Numbered as the opcode table numbers them: 0x90 with operands of zeros is a velocity-0 Note On, 0xB0 a controller 0. -/
theorem test_table_words :
    decodeTableWord 8 0x99 = some (.noteOnDrum 0 0) ∧ decodeTableWord 24 0x643C91 = some (.noteOn 1 60 100) ∧
      decodeTableWord 8 0x90 = some (.noteOnVel0 0 0) ∧ decodeTableWord 8 0xB0 = some (.ccChannelReset 0 0 0) ∧
      decodeTableWord 8 0xF8 = some (.skipStatusF 8) := by decide

/-- A placed word is the message that the next step completes. -/
theorem test_withFetchWord :
    after (step (fresh.withFetchWord 24 0x643C91)) (fun t => (t.pool[0], t.rx)) = some (voiceOn 1 60 0, .idle) ∧
      after (step (State.reset.withFetchWord 8 0xE0)) (fun t => t.rx) = some .idle := by
  refine ⟨by decide, rfl⟩

/-! ## The messages (V-DISP, P1) -/

/-- P1 step 3. -/
theorem test_noteOff_releases :
    after (exec (.noteOff 0 60 0) (put fresh 0 (voiceOn 0 60 57))) (fun t => t.pool[0]) =
      some { half := 0xFFFFFFFF, full := 0xFFFFFFFF, phase := 57, en := false, bound := false, ch := 0, note := 60 } := by
  decide

/-- V-DISP row 6: the other channel's voice stays. -/
theorem test_noteOff_other_channel :
    after (exec (.noteOff 0 60 64) (put fresh 0 (voiceOn 1 60 0))) (fun t => t.pool[0].bound) = some true := by decide

/-- V-DISP row 4. -/
theorem test_noteOn_binds :
    after (exec (.noteOn 0 60 100) fresh) (fun t => t.pool[0]) =
      some { half := 100, full := 200, phase := 0, en := true, bound := true, ch := 0, note := 60 } := by decide

/-- V-DISP row 30, U1. -/
theorem test_noteOn_above_127 : refusalOf (exec (.noteOn 0 128 1) fresh) = some .noteAbove127 := by decide

/-- V-DISP row 8. -/
theorem test_noteOnVel0_releases :
    after (exec (.noteOnVel0 0 60) (put fresh 0 (voiceOn 0 60 0))) (fun t => t.pool[0].bound) = some false := by decide

/-- V-DISP row 9. -/
theorem test_noteOnVel0_other_channel :
    after (exec (.noteOnVel0 0 60) (put fresh 0 (voiceOn 1 60 0))) (fun t => t.pool[0].bound) = some true := by decide

/-- V-DISP rows 15 and 32. -/
theorem test_noteOnDrum_triggers :
    after (exec (.noteOnDrum 51 127) fresh) (fun t => (t.drum.prog, t.drum.seg, t.drum.stage)) =
        some (some 10, 0, .uninitialized) ∧
      after (exec (.noteOnDrum 36 0) fresh) (fun t => (t.drum.prog, t.drum.stage)) = some (some 0, .uninitialized) := by
  decide

/-- V-DISP rows 13, 14, 28. -/
theorem test_noteOnDrum_unmapped : ([34, 58, 37, 57, 128] : List Byte).map (drumProgram t1) = [none, none, none, none, none] := by
  decide

/-- V-DISP rows 11 and 12. -/
theorem test_ccVolume_writes :
    ([0, 7, 8, 127, 100] : List Byte).map (fun v => after (exec (.ccVolume 0 7 v) fresh) (fun t => t.cv[0])) =
        [some 0, some 0, some 1, some 15, some 12] ∧
      after (exec (.ccVolume 9 7 64) fresh) (fun t => (t.cv[9], t.drum.chvol)) = some (8, 8) := by decide

/-- V-DISP row 31. -/
theorem test_ccVolume_above_127 : refusalOf (exec (.ccVolume 0 7 128) fresh) = some .volumeAbove127 := by decide

/-- V-DISP row 17. -/
theorem test_ccChannelReset_channel :
    after (exec (.ccChannelReset 2 123 0) (threeVoices fresh)) (fun t => (t.pool[0].bound, t.pool[1].bound, t.pool[19].half)) =
      some (false, false, 96) := by decide

/-- V-DISP row 20: a channel reset leaves the volumes. -/
theorem test_ccChannelReset_volumes :
    after (exec (.ccChannelReset 2 0 40) (threeVoices fresh)) (fun t => t.cv[2]) = some 15 := by decide

/-- V-DISP row 22. -/
theorem test_ccNop_nothing :
    after (exec (.ccNop 2 122 40) (threeVoices fresh)) (fun t => (t.pool[0].bound, t.cv[2])) = some (true, 15) := by decide

/-- V-DISP row 23. -/
theorem test_pc_releases :
    after (exec (.pc 0 5) (put fresh 0 (voiceOn 0 60 0))) (fun t => t.pool[0].bound) = some false := by decide

/-- V-MIX, commit granularity: between the two frees of one message at granularity `record` one voice still sounds. -/
theorem test_pc_record :
    after (exec (.pc 2 5) (threeVoices freshRecord)) (fun t => (t.pool[0].bound, t.pool[1].bound, t.pending)) =
      some (false, true, [.freeVoice 1]) := by decide

/-- V-DISP row 3. -/
theorem test_skips_nothing :
    exec (.skipStatusF 8) fresh = .next fresh ∧ exec (.skipStatusA 0) fresh = .next fresh ∧
      exec (.skipData 1) fresh = .next fresh ∧ exec (.skipStatusD 0) fresh = .next fresh ∧
      exec (.skipStatusE 0) fresh = .next fresh := ⟨rfl, rfl, rfl, rfl, rfl⟩

/-- V-DISP rows 5, 7 and 24: no running status; a Program Change takes a status byte as its data byte. -/
theorem test_receive :
    after (core.run 2 (fresh.scheduled [.byte 0x90, .byte 0x3C])) (fun t => t.rx) = some (.haveData1 0x90 0x3C) ∧
      after (core.run 2 (fresh.scheduled [.byte 0xC5, .byte 0x90])) (fun t => t.rx) = some .idle := by decide

/-! ## The tick (V-PRNG, V-VOICE, V-DRUM, V-MIX) -/

theorem test_prng :
    prngNext 0x0000 = (0x3711, 0x37) ∧ prngNext 0xFFFF = (0x3708, 0x37) ∧ prngNext 0x1234 = (0xDAE5, 0xDA) ∧
      prngNext 0x8000 = (0xB711, 0xB7) := by decide

/-- V-VOICE-2 ticks 1, 2, 5, 6: below the half, at the half, at the full, past it. -/
theorem test_voice_period_six :
    ([1, 2, 5, 6] : List Nat).map (fun p =>
        let o := Voice.tick { voiceOn 0 60 p with half := 3, full := 6 } t1
        (o.1.phase, o.2)) =
      [(2, true), (3, false), (6, false), (1, true)] := by decide

/-- V-VOICE-4: `half = full = 0`, and an increment above the full period. -/
theorem test_voice_corners :
    (Voice.tick { voiceOn 0 60 1 with half := 0, full := 0 } t1).2 = true ∧
      (Voice.tick { voiceOn 0 60 3 with half := 2, full := 4 } { t1 with voiceTickInc := 7 }).1.phase = 6 := by decide

/-- R137 (a), R39: the phase wraps modulo 2^CW, at CW = 8 and at CW = 32; R24: `PERIOD_NEVER` follows the width. -/
theorem test_width :
    (Voice.tick { voiceOn 0 60 255 with half := 0, full := 0 } { t1 with cw := 8 }).1.phase = 0 ∧
      (Voice.tick { voiceOn 0 60 255 with half := 0, full := 0 } t1).1.phase = 256 ∧
      (Voice.tick { voiceOn 0 60 0xFFFFFFFF with half := 0, full := 0 } t1).1.phase = 0 ∧
      ((voiceOn 0 60 0).freed { t1 with cw := 8 }).full = 255 := by decide

/-- R102, V-DRUM-C: a step of 2^CW - 2 lowers the tone period by 2. -/
theorem test_negative_step :
    addMod t1 8 0xFFFFFFFE = 6 ∧ addMod { t1 with cw := 8 } 8 254 = 6 := by decide

/-- V-DRUM-3 ticks 0 and 2. -/
theorem test_drum_sustained :
    (drumTick t1 (atSegment 3 0 .uninitialized) 0).map (fun o => (o.amp, o.drum.envElapsed, o.drum.stage)) =
        some (32, 1, .running) ∧
      (drumTick t1 { atSegment 3 0 .running with envElapsed := 2 } 0).map (fun o => (o.amp, o.drum.stage)) =
        some (32, .finished) := by decide

/-- V-DRUM-4 ticks 0, 7 and 8. -/
theorem test_drum_decaying :
    (drumTick t1 (atSegment 4 0 .uninitialized) 0).map (fun o => o.amp) = some 64 ∧
      (drumTick t1 { atSegment 4 0 .running with envElapsed := 7 } 0).map (fun o => (o.amp, o.drum.stage)) =
        some (0, .running) ∧
      (drumTick t1 { atSegment 4 0 .running with envElapsed := 8 } 0).map (fun o => (o.amp, o.drum.seg, o.drum.stage)) =
        some (0, 1, .uninitialized) := by decide

/-- V-DRUM-0 tick 3: the tone sweep before the comparison. -/
theorem test_drum_tone_sweep :
    (drumTick t1 { atSegment 0 0 .running with tonePeriod := 8, toneHalf := 4, toneSweepAcc := 3, tonePhase := 3, envElapsed := 3 }
        0).map (fun o => (o.amp, o.drum.tonePeriod, o.drum.toneHalf, o.drum.toneSweepAcc, o.drum.tonePhase)) =
      some (255, 10, 5, 0, 4) := by decide

/-- V-DRUM-0 ticks 13 and 14: a tone-low tick does not end the segment, the wrap tick does. -/
theorem test_drum_tone_gates_end :
    (drumTick t1 { atSegment 0 0 .running with tonePeriod := 14, toneHalf := 7, toneSweepAcc := 1, tonePhase := 13, envElapsed := 13 }
        0).map (fun o => (o.amp, o.drum.seg, o.drum.stage)) = some (0, 0, .running) ∧
      (drumTick t1 { atSegment 0 0 .running with tonePeriod := 14, toneHalf := 7, toneSweepAcc := 2, tonePhase := 14, envElapsed := 14 }
        0).map (fun o => (o.amp, o.drum.seg, o.drum.stage, o.drum.tonePhase)) = some (255, 1, .uninitialized, 1) := by decide

/-- V-DRUM-1 tick 2: the draw. -/
theorem test_drum_draw :
    (drumTick t1 { atSegment 1 0 .running with noisePeriod := 3, noiseSweepAcc := 2, noisePhase := 2, envElapsed := 2 } 0x8000).map
        (fun o => (o.amp, o.seed, o.drum.noiseBit, o.drum.noisePhase)) = some (24, 0xB711, true, 0) := by decide

/-- V-DRUM-1 tick 5: the noise sweep. -/
theorem test_drum_noise_sweep :
    (drumTick t1 { atSegment 1 0 .running with noisePeriod := 3, noiseSweepAcc := 5, noisePhase := 2, envElapsed := 5, noiseBit := true }
        0xB711).map (fun o => (o.amp, o.drum.noisePeriod, o.drum.noiseSweepAcc, o.drum.noisePhase)) = some (8, 4, 1, 3) := by
  decide

/-- V-DRUM-2 tick 2: a tone-low tick does not run the noise path. -/
theorem test_drum_tone_low :
    (drumTick t1 { atSegment 2 0 .running with tonePeriod := 6, toneHalf := 3, tonePhase := 2, noisePeriod := 2, noiseSweepAcc := 2,
                                               envElapsed := 2 } 0x3711).map
        (fun o => (o.amp, o.seed, o.drum.noiseSweepAcc, o.drum.noisePhase)) = some (0, 0x3711, 2, 0) := by decide

/-- V-MIX, divide and clamp. -/
theorem test_mix_levels :
    ([0, 8, 9, 248, 2294, 2295, 2304, 4992, 5355] : List Nat).map mixLevel = [0, 0, 1, 27, 254, 255, 255, 255, 255] := by decide

/-- V-MIX, first rows: `TICK` from reset, and `90 3C 01 99 29 01`, `TICK`. -/
theorem test_mix_tick :
    after fresh.tick (fun t => t.outLevel) = some 0 ∧
      after (State.tick { put fresh 0 (voiceOn 0 60 0) with drum := atSegment 3 0 .uninitialized }) (fun t => t.outLevel) =
        some 31 := by decide

/-- V-PRNG: a seed load. -/
theorem test_seedLoad : after (step (fresh.scheduled [.seedLoad 0x1234])) (fun t => t.seed) = some 0x1234 := by decide

/-! ## A state and operands that meet the hypotheses of each statement -/

theorem test_witness_DecodeOfEncode :
    (Instr.noteOn 15 255 1).wellFormed = true ∧ (Instr.noteOnVel0 8 0).wellFormed = true ∧
      (Instr.ccVolume 9 11 255).wellFormed = true ∧ (Instr.ccChannelReset 0 127 255).wellFormed = true ∧
      (Instr.ccNop 0 128 255).wellFormed = true ∧ (Instr.skipData 127).wellFormed = true := by decide

theorem test_witness_EncodeOfDecode :
    decode [0x9F, 0xFF, 0x01, 0x80] = .instr (.noteOn 15 255 1) [0x80] ∧ decode [0xCF, 0xFF] = .instr (.pc 15 0xFF) [] ∧
      decode [0x7F] = .instr (.skipData 127) [] := by decide

theorem test_witness_StepRunsDecodedMessage :
    let s : State := { fresh.scheduled [.byte 0, .tick] with rx := .haveData1 0x90 60 }
    s.pending = [] ∧ s.inbox = .byte 0 :: [.tick] ∧ decode (s.rx.bytes ++ [0]) = .instr (.noteOnVel0 0 60) [] := by decide

theorem test_witness_ByteInIdle :
    let s := fresh.scheduled [.byte 0x80]
    s.pending = [] ∧ s.inbox = .byte 0x80 :: [] ∧ s.rx = .idle := by decide

theorem test_witness_ByteAfterStatus :
    let s : State := { fresh.scheduled [.byte 0xFF] with rx := .haveStatus 0xCF }
    s.pending = [] ∧ s.inbox = .byte 0xFF :: [] ∧ s.rx = .haveStatus 0xCF := by decide

/-- The state that holds a status and a first data byte and is about to receive the last byte. -/
def lastByte (status d1 b : Byte) : State := { fresh.scheduled [.byte b] with rx := .haveData1 status d1 }

theorem test_witness_ByteAfterFirstData (status d1 b : Byte) :
    (lastByte status d1 b).pending = [] ∧ (lastByte status d1 b).inbox = .byte b :: [] ∧
      (lastByte status d1 b).rx = .haveData1 status d1 := ⟨rfl, rfl, rfl⟩

/-- One status, first data byte and last byte for each clause, at the ends of its range. -/
theorem test_witness_ByteAfterFirstData_clauses :
    (0x8F : Byte).toNat / 16 = 0x8 ∧
      ((0x99 : Byte).toNat / 16 = 0x9 ∧ (0x99 : Byte).extractLsb' 0 4 = (9 : Channel)) ∧
      ((0x9A : Byte).toNat / 16 = 0x9 ∧ (0x9A : Byte).extractLsb' 0 4 ≠ (9 : Channel) ∧ (0 : Byte) = 0) ∧
      ((0x98 : Byte).toNat / 16 = 0x9 ∧ (0x98 : Byte).extractLsb' 0 4 ≠ (9 : Channel) ∧ (1 : Byte) ≠ 0) ∧
      ((0xBF : Byte).toNat / 16 = 0xB ∧ (11 : Byte) ∈ ([7, 11] : List Byte)) ∧
      ((0xB0 : Byte).toNat / 16 = 0xB ∧ (127 : Byte) ∈ ([0, 120, 121, 123, 124, 125, 126, 127] : List Byte)) ∧
      ((0xB0 : Byte).toNat / 16 = 0xB ∧ (122 : Byte) ∉ ([0, 7, 11, 120, 121, 123, 124, 125, 126, 127] : List Byte)) := by decide

theorem test_witness_NoEventNoChange : fresh.inbox = [] ∧ fresh.pending = [] := by decide

/-- For the releasing messages: a slot that is released and one that is not, in the last slots too. -/
theorem test_witness_releases :
    (threeVoices fresh).pending = [] ∧ (threeVoices freshRecord).pending = [] ∧
      ((threeVoices fresh).pool[19].bound = true ∧ (threeVoices fresh).pool[19].ch = 3 ∧ (threeVoices fresh).pool[19].note = 64) ∧
      ((threeVoices fresh).pool[0].bound = true ∧ (threeVoices fresh).pool[0].ch = 2 ∧ (threeVoices fresh).pool[0].note = 64) ∧
      (threeVoices fresh).pool[18].bound = false := by decide

theorem test_witness_ReleaseOfUnboundPairIsNoOp :
    (threeVoices freshRecord).pending = [] ∧ ∀ k : VoiceIx, ¬((threeVoices freshRecord).pool[k].bound = true ∧
      (threeVoices freshRecord).pool[k].ch = 3 ∧ (threeVoices freshRecord).pool[k].note = 65) := by decide

/-- A pool of 20 voices on channel 1, notes from 40 up. -/
def fullPool : State := { fresh with pool := Vector.ofFn fun i => voiceOn 1 (BitVec.ofNat 7 (40 + i)) 0 }

/-- A bound pair; an unbound pair above 127; a full pool; a free slot at either end of the pool. -/
theorem test_witness_NoteOnTakesLowestFreeSlot :
    (fullPool.pool[19].bound = true ∧ fullPool.pool[19].ch = 1 ∧ fullPool.pool[19].note = 59) ∧
      ((∀ k : VoiceIx, ¬(fullPool.pool[k].bound = true ∧ fullPool.pool[k].ch = 1 ∧ fullPool.pool[k].note = 128)) ∧
        127 < (128 : Byte).toNat) ∧
      ((∀ k : VoiceIx, ¬(fullPool.pool[k].bound = true ∧ fullPool.pool[k].ch = 1 ∧ fullPool.pool[k].note = 127)) ∧
        (127 : Byte).toNat ≤ 127 ∧ ∀ k : VoiceIx, fullPool.pool[k].bound = true) ∧
      ((∀ k : VoiceIx, ¬(fresh.pool[k].bound = true ∧ fresh.pool[k].ch = 0 ∧ fresh.pool[k].note = 127)) ∧
        (127 : Byte).toNat = (127 : Fin 128) ∧ fresh.pool[0].bound = false) := by decide

theorem test_witness_NoteOnTakesLowestFreeSlot_last :
    let s := fullPool.freeVoice 19
    (∀ k : VoiceIx, ¬(s.pool[k].bound = true ∧ s.pool[k].ch = 1 ∧ s.pool[k].note = 0)) ∧ (0 : Byte).toNat = (0 : Fin 128) ∧
      s.pool[19].bound = false ∧ ∀ j : VoiceIx, j < 19 → s.pool[j].bound = true := by decide

/-- Below and above the range; a mapped note and an unmapped one at the ends of the range; T1 maps note 51 to id 10. -/
theorem test_witness_DrumNoteTriggers :
    (34 : Byte).toNat < 35 ∧ 57 < (58 : Byte).toNat ∧
      ((35 : Byte).toNat = (0 : Fin 23) + 35 ∧ fresh.build.drumNoteMap[(0 : Fin 23)] = some ((0 : ProgramId) : Nat)) ∧
      ((51 : Byte).toNat = (16 : Fin 23) + 35 ∧ fresh.build.drumNoteMap[(16 : Fin 23)] = some ((10 : ProgramId) : Nat)) ∧
      ((57 : Byte).toNat = (22 : Fin 23) + 35 ∧ ∀ id : ProgramId, fresh.build.drumNoteMap[(22 : Fin 23)] ≠ some (id : Nat)) := by
  decide

theorem test_witness_VolumeControllerWrites :
    127 < (128 : Byte).toNat ∧ ((127 : Byte).toNat ≤ 127 ∧ fresh.pending = []) ∧ freshRecord.pending = [] ∧
      ((0 : Fin 16) : Nat) = (0 : Channel).toNat ∧ ((15 : Fin 16) : Nat) ≠ (9 : Channel).toNat := by decide

theorem test_witness_NopAndSkipsChangeNothing :
    Instr.skipData 0 ∈ ([.ccNop 0 1 0, .skipStatusA 0, .skipStatusD 0, .skipStatusE 0, .skipStatusF 0, .skipData 0] : List Instr) := by
  decide

/-- Both refusals arise. -/
theorem test_witness_OnlyTwoInputsRefused :
    exec (.noteOn 15 128 1) fresh = .refused .noteAbove127 ∧ exec (.ccVolume 9 11 128) fresh = .refused .volumeAbove127 :=
  ⟨rfl, rfl⟩

/-- Twenty distinct pairs, and a slot beyond a shorter list. -/
theorem test_witness_PoolFillsInSlotOrder :
    let pairs : List (Channel × BitVec 7) := (List.range 20).map fun i => (0, BitVec.ofNat 7 (40 + i))
    (∀ k : VoiceIx, fresh.pool[k].bound = false) ∧ pairs.Nodup ∧ pairs.length = 20 ∧
      pairs[((19 : VoiceIx) : Nat)]? = some (0, 59) ∧ (pairs.take 19).Nodup ∧ (pairs.take 19).length ≤ ((19 : VoiceIx) : Nat) := by
  decide

theorem test_witness_DuplicateNoteOnThenNoteOff :
    (threeVoices fresh).pending = [] ∧ (127 : Byte).toNat ≤ 127 ∧
      (∀ k : VoiceIx, ¬((threeVoices fresh).pool[k].bound = true ∧ (threeVoices fresh).pool[k].ch = 2 ∧
        (threeVoices fresh).pool[k].note = 127)) ∧
      ∃ k : VoiceIx, (threeVoices fresh).pool[k].bound = false := by decide

theorem test_witness_RecordVolumeInTwoCommits :
    freshRecord.build.granularity = .record ∧ freshRecord.pending = [] ∧ (127 : Byte).toNat ≤ 127 := by decide

/-- For each of the four releasing messages, its first voice in the first or the last slot. -/
theorem test_witness_RecordReleaseFreesOneVoice :
    let s := threeVoices freshRecord
    s.build.granularity = .record ∧ s.pending = [] ∧
      (∀ i ∈ ([.pc 2 5, .ccChannelReset 2 123 0, .noteOff 2 64 0, .noteOnVel0 2 64] : List Instr),
        s.pool[(0 : VoiceIx)].freedBy i = true ∧ ∀ j : VoiceIx, j < 0 → s.pool[j].freedBy i = false) ∧
      ∀ i ∈ ([.pc 3 5, .ccChannelReset 3 123 0, .noteOff 3 64 0, .noteOnVel0 3 64] : List Instr),
        s.pool[(19 : VoiceIx)].freedBy i = true ∧ ∀ j : VoiceIx, j < 19 → s.pool[j].freedBy i = false := by decide

/-- A commit of each kind to come, and an inbox. -/
def committing (c : Commit) (inbox : List Event) : State := { freshRecord with pending := [c, .freeVoice 19], inbox := inbox }

/-- Any commit at the head, and each clause's inbox: none, a byte, the schedule's word, a tick. -/
theorem test_witness_PendingCommitSteps (c : Commit) (b : Byte) :
    (∀ inbox, (committing c inbox).pending = c :: [.freeVoice 19]) ∧ (committing c []).inbox = [] ∧
      (committing c [.byte b]).inbox = .byte b :: [] ∧ (committing c [.commit]).inbox = .commit :: [] ∧
      (committing c [.tick]).inbox = .tick :: [] := ⟨fun _ => rfl, rfl, rfl, rfl, rfl⟩

/-- The tick runs with a commit to come, and leaves it. -/
theorem test_witness_PendingCommitSteps_tick :
    after (step (committing (.drumVolume 8) [.tick])) (fun t => (t.pending, t.drum.chvol)) =
      some ([.drumVolume 8, .freeVoice 19], 15) := by decide

/-- A pending volume commit met by a byte, which stays in the inbox. -/
theorem test_commit_before_byte :
    after (step (committing (.drumVolume 8) [.byte 0x90])) (fun t => (t.pending, t.drum.chvol, t.inbox, t.rx)) =
      some ([.freeVoice 19], 8, [.byte 0x90], .idle) := by decide

theorem test_witness_RecordDrainsToMessage :
    freshRecord.build.granularity = .record ∧ freshRecord.pending = [] ∧ exec (.ccNop 0 1 0) freshRecord = .next freshRecord ∧
      exec (.ccVolume 9 7 128) freshRecord = .refused .volumeAbove127 := ⟨rfl, rfl, rfl, rfl⟩

theorem test_witness_PrngFullPeriod : 0 < 65535 ∧ 65535 < 65536 := by decide

theorem test_witness_SeedLoadSetsSeedOnly : (fresh.scheduled [.seedLoad 0xFFFF]).inbox = .seedLoad 0xFFFF :: [] := rfl

/-- A noise segment about to draw. -/
def drawing : State :=
  { fresh.scheduled [.tick] with
    drum := { atSegment 1 0 .running with noisePeriod := 3, noisePhase := 2, envElapsed := 11 }
    seed := 0x8000 }

/-- The seed moves by a seed load, a reset and a draw. -/
theorem test_witness_SeedMovesOnlyOnNoiseDraw :
    after (step (fresh.scheduled [.seedLoad 1])) (fun t => t.seed) = some 1 ∧
      after (step { fresh.scheduled [.reset] with seed := 1 }) (fun t => t.seed) = some 0 ∧
      after (step drawing) (fun t => t.seed) = some 0xB711 := by decide

/-- A tick over a free voice, and voices below the half, at the full and past it (V-VOICE-2). -/
def fourVoices : State :=
  put (put (put (fresh.scheduled [.tick]) 1 { voiceOn 0 60 0 with half := 3, full := 6 })
    2 { voiceOn 0 61 5 with half := 3, full := 6 }) 19 { voiceOn 0 62 6 with half := 3, full := 6 }

/-- One voice for each clause, and the tick runs. -/
theorem test_witness_VoicePhaseAccumulates :
    fourVoices.inbox = .tick :: [] ∧ after (step fourVoices) (fun t => t.inbox) = some [] ∧ fourVoices.pool[0].bound = false ∧
      (fourVoices.pool[1].bound = true ∧ (fourVoices.pool[1].phase + 1) % 2 ^ 32 < fourVoices.pool[1].half) ∧
      (¬(fourVoices.pool[2].phase + 1) % 2 ^ 32 < fourVoices.pool[2].half ∧
        (fourVoices.pool[2].phase + 1) % 2 ^ 32 = fourVoices.pool[2].full) ∧
      fourVoices.pool[19].full < (fourVoices.pool[19].phase + 1) % 2 ^ 32 := by decide

/-- OUT_LEVEL moves by a tick, and by a reset. -/
theorem test_witness_OutLevelMovesOnlyOnTick :
    after (step fourVoices) (fun t => t.outLevel) = some 55 ∧
      after (step { fresh.scheduled [.reset] with outLevel := 27 }) (fun t => t.outLevel) = some 0 := by decide

/-- Also for MixerClampsNeverWraps: `drum_tick` answers. -/
theorem test_witness_TickMixesVoicesAndDrum :
    fourVoices.inbox = .tick :: [] ∧
      drumTick fourVoices.build fourVoices.drum fourVoices.seed = some { drum := fourVoices.drum, seed := 0, amp := 0 } := by decide

theorem test_witness_SilenceWithoutVoicesOrDrum :
    (fresh.scheduled [.tick]).inbox = .tick :: [] ∧ (∀ k : VoiceIx, (fresh.scheduled [.tick]).pool[k].bound = false) ∧
      (fresh.scheduled [.tick]).drum.stage = .finished := by decide

/-- The smallest half-period of the statement, and the largest at CW = 32 and at the smallest width, 3. -/
theorem test_witness_VoiceWaveform :
    let v : Voice := { voiceOn 0 60 0 with half := 2, full := 4 }
    let w : Voice := { voiceOn 0 60 0 with half := 0x7FFFFFFF, full := 0xFFFFFFFE }
    let x : Voice := { voiceOn 0 60 0 with half := 3, full := 6 }
    t1.voiceTickInc = 1 ∧ 2 * 2 < 2 ^ t1.cw ∧ (v.bound = true ∧ v.en = true ∧ v.phase = 0 ∧ v.half = 2 ∧ v.full = 2 * 2) ∧
      2 * 0x7FFFFFFF < 2 ^ t1.cw ∧
      (w.bound = true ∧ w.en = true ∧ w.phase = 0 ∧ w.half = 0x7FFFFFFF ∧ w.full = 2 * 0x7FFFFFFF) ∧
      2 * 3 < 2 ^ { t1 with cw := 3 }.cw ∧
      x.bound = true ∧ x.en = true ∧ x.phase = 0 ∧ x.half = 3 ∧ x.full = 2 * 3 := by decide

/-- The current segment of each NoiseDrum state below. -/
theorem test_current_segment :
    (atSegment 3 0 .uninitialized).current t1 = some (plainHit, seg 2 0 0 0b11 8 0 0 0 0) ∧
      (atSegment 4 1 .running).current t1 = some (t1.program[4], seg 1 0 0 0b11 4 0 0 0 0) ∧
      (atSegment 1 0 .running).current t1 = some (t1.program[1], t1.program[1].first) ∧
      (atSegment 0 0 .running).current t1 = some (t1.program[0], t1.program[0].first) := by decide

theorem test_witness_FinishedSilentAndFirstTickPrimes :
    fresh.drum.stage = .finished ∧ (atSegment 3 0 .uninitialized).stage = .uninitialized ∧
      (atSegment 3 0 .uninitialized).current t1 = some (plainHit, seg 2 0 0 0b11 8 0 0 0 0) := by decide

/-- Program 4's decaying segment and program 3's sustained one, both paths disabled, at the last tick before their end
and the first past it: every clause with a vote of 1. -/
theorem test_witness_SegmentSoundsAndAdvances :
    (drumTick t1 { atSegment 3 0 .running with envElapsed := 1 } 0).isSome = true ∧
      (drumTick t1 { atSegment 3 0 .running with envElapsed := 2 } 0).isSome = true ∧
      (drumTick t1 { atSegment 4 0 .running with envElapsed := 7 } 0).isSome = true ∧
      (drumTick t1 { atSegment 4 0 .running with envElapsed := 8 } 0).isSome = true ∧
      (seg 2 0 0 0b11 8 0 0 0 0).mixMask = 0b11 ∧ ¬(2 : Nat) < 1 + 1 ∧ (2 : Nat) < 2 + 1 ∧ ¬(8 : Nat) < 7 + 1 ∧
      (8 : Nat) < 8 + 1 := by decide

/-- A vote of 0: a tone path between its half and its full period. -/
theorem test_witness_tone_low :
    let d : Drum := { atSegment 0 0 .running with tonePeriod := 8, toneHalf := 4, tonePhase := 3 }
    d.stage = .running ∧ t1.program[0].first.mixMask[0] = false ∧
      (drumTick t1 d 0).map (fun o => (decide (d.tonePhase + 1 < o.drum.toneHalf), decide (o.drum.tonePeriod < d.tonePhase + 1))) =
        some (false, false) := by decide

/-- The tone path disabled, and enabled on a tick that sweeps. -/
theorem test_witness_TonePathOfRunningSegment :
    (drumTick t1 (atSegment 3 0 .running) 0).isSome = true ∧ t1.program[3].first.mixMask[0] = true ∧
      (drumTick t1 { atSegment 0 0 .running with tonePeriod := 8, toneHalf := 4, toneSweepAcc := 3 } 0).isSome = true ∧
      t1.frameTime ≤ (3 + 1) % 2 ^ t1.cw ∧ t1.program[0].first.toneSweepStep ≠ 0 := by decide

/-- The noise path enabled with the tone path disabled, on a tick that draws and on one that sweeps. -/
theorem test_witness_NoisePathOfRunningSegment :
    t1.program[1].first.mixMask[0] = true ∧ t1.program[1].first.mixMask[1] = false ∧
      (drumTick t1 drawing.drum 0x8000).map (fun o => o.seed) = some 0xB711 ∧
      (drumTick t1 { drawing.drum with noiseSweepAcc := 5 } 0x8000).map (fun o => o.drum.noiseSweepAcc) = some 1 ∧
      (drumTick t1 (atSegment 3 0 .running) 0).isSome = true ∧ t1.program[3].first.mixMask[1] = true := by decide

theorem test_witness_DrumAmplitudeFromCurve :
    (drumTick t1 (atSegment 3 0 .running) 0).map (fun o => o.amp) = some 32 ∧
      (drumTick t1 (atSegment 3 0 .finished) 0).map (fun o => o.amp) = some 0 := by decide

/-- T1's drum curve saturates (R63), and one that falls at its last two entries does not. -/
theorem test_t1_saturates :
    t1.Saturates ∧ ¬Build.Saturates { t1 with drumCurve := (t1.drumCurve.set 15 0).set 16 0 } := by
  unfold Build.Saturates; decide

/-- Tick 0 of V-DRUM-0: a sustained segment of volume 15 with a vote of 1 sounds 255. -/
theorem test_witness_DrumAmplitudeSaturates :
    ∃ (g : Segment) (o : DrumOut), drumTick t1 (atSegment 0 0 .uninitialized) 0 = some o ∧
      (atSegment 0 0 .uninitialized).current t1 = some (t1.program[0], g) ∧ g.envDuration = 0 ∧ g.volume = 15 ∧
      toneVote t1 g (atSegment 0 0 .uninitialized).tonePhase o.drum ∧ noiseVoteOf g o.drum ∧ o.amp = 255 :=
  ⟨t1.program[0].first, _, rfl, by decide, by decide, by decide, by unfold toneVote; decide, by unfold noiseVoteOf; decide,
    by decide⟩

/-- A state with a NoiseDrum and one event. -/
def drumming (d : Drum) (e : Event) : State := { fresh.scheduled [e] with drum := d }

/-- Each stage reached in each of its ways. -/
theorem test_witness_StageTransitions :
    after (step (drumming (atSegment 3 0 .uninitialized) .tick)) (fun t => t.drum.stage) = some .running ∧
      after (step (drumming { atSegment 3 0 .running with envElapsed := 2 } .tick)) (fun t => t.drum.stage) = some .finished ∧
      after (step (drumming (atSegment 3 0 .running) .reset)) (fun t => t.drum.stage) = some .finished ∧
      after (step (drumming { atSegment 4 0 .running with envElapsed := 8 } .tick)) (fun t => (t.drum.stage, t.drum.seg)) =
        some (.uninitialized, 1) ∧
      after (step (drumming (atSegment 4 0 .uninitialized) (.seedLoad 1))) (fun t => t.drum.stage) = some .uninitialized ∧
      after (step ((lastByte 0x99 41 0))) (fun t => t.drum.stage) = some .uninitialized := by decide

/-- V-DRUM-1 after tick 11. -/
theorem test_witness_DecayedNoiseSegmentHangs :
    let d : Drum := { atSegment 1 0 .running with noisePeriod := 5, noiseSweepAcc := 2, envElapsed := 12 }
    let g := t1.program[1].first
    d.stage = .running ∧ d.current t1 = some (t1.program[1], g) ∧ g.envDuration ≠ 0 ∧ g.mixMask[1] = false ∧ d.noiseBit = false ∧
      g.envDuration < d.envElapsed + t1.drumTimeInc ∧ d.envElapsed + (2 ^ 32 - 13) * t1.drumTimeInc < 2 ^ t1.cw := by
  decide

theorem test_witness_ResetSetsEveryRegister : (drumming (atSegment 3 0 .running) .reset).inbox = .reset :: [] := rfl

/-- A state that meets the invariants: three voices at work, a tone segment running, a volume message half done. -/
def busy : State :=
  { threeVoices freshRecord with
    drum := { atSegment 0 1 .running with tonePeriod := 12, toneHalf := 6, tonePhase := 12, envElapsed := 11, chvol := 15 }
    cv := (Vector.replicate 16 15).set 9 8
    rx := .haveData1 0x9F 0xFF
    pending := [.drumVolume 8]
    inbox := [.tick] }

theorem test_busy_voices :
    ∀ i : VoiceIx, (busy.pool[i].bound = true → busy.pool[i].en = true ∧ busy.pool[i].note.toNat ≤ 127 ∧ busy.pool[i].ch ≠ drumChannel ∧
      busy.pool[i].half = noteHalf busy.build (busy.pool[i].note.setWidth 7) ∧ busy.pool[i].full = 2 * busy.pool[i].half ∧
      busy.pool[i].phase ≤ busy.pool[i].full) ∧ (busy.pool[i].bound = false → busy.pool[i].en = false) := by decide

theorem test_busy_oneVoice : OneVoicePerPair busy.pool := by unfold OneVoicePerPair; decide

theorem test_busy_inv : busy.Inv where
  latch := show statusOp 0x9F = 0x8 ∨ statusOp 0x9F = 0x9 ∨ statusOp 0x9F = 0xB by decide
  voices i :=
    { enabled := fun h => ((test_busy_voices i).1 h).1
      disabled := (test_busy_voices i).2
      noteSeven := fun h => ((test_busy_voices i).1 h).2.1
      notDrum := fun h => ((test_busy_voices i).1 h).2.2.1
      half := fun h => ((test_busy_voices i).1 h).2.2.2.1
      full := fun h => ((test_busy_voices i).1 h).2.2.2.2.1
      phase := fun h _ => ((test_busy_voices i).1 h).2.2.2.2.2 }
  oneVoice := test_busy_oneVoice
  drum := { active := by decide, inRange := by decide, halved := by decide }
  drumVolume := by decide
  whole := by decide
  widths _ := ⟨by unfold Voice.Fits; decide, by unfold Drum.Fits; decide⟩

/-- The same with nothing to come, at either granularity. -/
def quiet (g : Granularity) : State :=
  { busy with pending := [], cv := Vector.replicate 16 15, build := { t1 with granularity := g } }

/-- For DrumChannelReleasesNothing, and for DrumVolumeIsChannelNine with either of its premises. -/
theorem test_quiet_inv (g : Granularity) : (quiet g).Inv where
  latch := test_busy_inv.latch
  voices i :=
    { enabled := (test_busy_inv.voices i).enabled
      disabled := (test_busy_inv.voices i).disabled
      noteSeven := (test_busy_inv.voices i).noteSeven
      notDrum := (test_busy_inv.voices i).notDrum
      half := (test_busy_inv.voices i).half
      full := (test_busy_inv.voices i).full
      phase := (test_busy_inv.voices i).phase }
  oneVoice := test_busy_oneVoice
  drum :=
    { active := test_busy_inv.drum.active, inRange := test_busy_inv.drum.inRange, halved := test_busy_inv.drum.halved }
  drumVolume := rfl
  whole _ := rfl
  widths := test_busy_inv.widths

/-- The premise of the widths is met: T1's tables fit 32 bits. -/
theorem test_t1_fits : t1.Fits := by
  refine ⟨by decide, fun n => ?_, by unfold Segment.Fits; decide⟩
  simp only [t1, Fin.getElem_fin, Vector.getElem_ofFn]
  omega

/-- The constraints on a build can be met: T1 meets them. -/
theorem test_t1_admissible : t1.Admissible := ⟨test_t1_fits, by decide, test_t1_saturates.1, by decide⟩

/-- For StepKeepsInvariant, InvariantStepNeverFaults, EveryTickCompletes, StepKeepsTables and ContextsWriteTheirOwnState. -/
theorem test_witness_busy_tick :
    busy.Inv ∧ busy.inbox = .tick :: [] ∧ ∃ t, step busy = .next t ∧ t.drum.stage = .finished := by
  refine ⟨test_busy_inv, rfl, ?_⟩
  obtain ⟨o, ho⟩ := drumTick_isSome test_busy_inv.drum busy.seed
  have hd : (drumTick busy.build busy.drum busy.seed).map (fun o => o.drum.stage) = some .finished := by decide
  refine ⟨_, by rw [step_tick rfl]; exact State.tick_eq_next_iff.2 ⟨o, ho, rfl⟩, ?_⟩
  rw [State.ticked_drum]
  rw [ho] at hd
  exact Option.some.inj hd

/-- For ContextsWriteTheirOwnState: a commit of the event context, by the schedule's word and with an empty inbox. -/
theorem test_witness_commit_steps :
    after (step (committing (.channelVolume 3 8) [.commit])) (fun t => (t.cv[3], t.inbox)) = some (8, []) ∧
      after (step (committing (.freeVoice 0) [])) (fun t => t.pending) = some [.freeVoice 19] := by decide

/-- For ContextsWriteTheirOwnState: a byte that triggers, and one that binds a voice. -/
theorem test_witness_byte :
    after (step (lastByte 0x99 41 0)) (fun t => (t.drum.prog, t.drum.seg)) = some (some 3, 0) ∧
      after (step (lastByte 0x90 60 1)) (fun t => (t.pool[0].bound, t.pool[0].phase)) = some (true, 0) := by decide

end Sys2Proof.Tests
end

section
/-! The scope of the model (00_scope.md): what a step does when no event is scheduled. -/

namespace Sys2Proof.Machine

/-- R14, R76: with an empty inbox the only thing left to happen is the next commit of the event context. -/
theorem step_of_inbox_nil {s : State} (h : s.inbox = []) : step s = .next s.commitNext := by
  simp only [step, State.runNext, h]

/-- Settles O9: with no event the step makes the next commit, and with none pending that is the state itself. -/
theorem noEventNoChange : Obligations.NoEventNoChange := by
  intro s hinbox hpending
  rw [step_of_inbox_nil hinbox, State.commitNext_of_pending_nil hpending]

end Sys2Proof.Machine
end

section
/-! Who writes what (10_state.md R41): the footprint of the tick context, of a byte, and of a record commit. -/

namespace Sys2Proof.Machine

open Config

/-- A tick of the NoiseDrum leaves the active program and the volume (R41). -/
theorem drumTick_prog_chvol {b : Build} {d : Drum} {seed : Seed} {o : DrumOut} (h : drumTick b d seed = some o) :
    o.drum.prog = d.prog ∧ o.drum.chvol = d.chvol := by
  rcases drumTick_cases h with ⟨-, rfl⟩ | ⟨-, p, g, -, rfl⟩
  · exact ⟨rfl, rfl⟩
  · obtain ⟨e, hprog, -, hchvol, -, -, he | he⟩ := Drum.runSegment_drum b p g d seed
    · rw [he]; exact ⟨hprog, hchvol⟩
    · rw [he, Drum.advanceSegment_frame]; exact ⟨hprog, hchvol⟩

/-- What the tick context leaves (R41). -/
theorem step_tick_frame {s t : State} {rest : List Event} (hi : s.inbox = .tick :: rest) (h : step s = .next t) :
    t.rx = s.rx ∧ t.cv = s.cv ∧ t.pending = s.pending ∧ t.drum.prog = s.drum.prog ∧ t.drum.chvol = s.drum.chvol ∧
      ∀ k : VoiceIx, t.pool[k] = { s.pool[k] with phase := t.pool[k].phase } := by
  rw [step_tick hi] at h
  obtain ⟨o, ho, rfl⟩ := State.tick_eq_next_iff.1 h
  obtain ⟨hprog, hchvol⟩ := drumTick_prog_chvol ho
  simp only [State.ticked_rx, State.ticked_cv, State.ticked_pending, State.ticked_drum, State.ticked_pool, tickPool_getElem]
  exact ⟨trivial, trivial, trivial, hprog, hchvol, fun k => Voice.tick_frame _ _⟩

/-- One commit frees a voice or leaves it (R76, R132). -/
theorem State.applyCommit_voice (s : State) (c : Commit) (k : VoiceIx) :
    (s.applyCommit c).pool[k] = s.pool[k] ∨ s.pool[k].ReleasedTo s.build (s.applyCommit c).pool[k] := by
  cases c with
  | freeVoice i =>
    rw [State.applyCommit, State.freeVoice_pool_getElem]
    split
    · exact .inr (Voice.releasedTo_freed _ _)
    · exact .inl rfl
  | channelVolume c v => exact .inl rfl
  | drumVolume v => exact .inl rfl

/-- A voice left as it was or released keeps its phase (R24, R132). -/
theorem Voice.phase_of_kept_or_releasedTo {b : Build} {v w : Voice} (h : w = v ∨ v.ReleasedTo b w) : w.phase = v.phase := by
  rcases h with rfl | ⟨-, -, -, -, hphase, -, -⟩
  · rfl
  · exact hphase

theorem State.foldl_applyCommit_phase (cs : List Commit) (s : State) (k : VoiceIx) :
    (cs.foldl State.applyCommit s).pool[k].phase = s.pool[k].phase := by
  induction cs generalizing s with
  | nil => rfl
  | cons c cs ih =>
    rw [List.foldl_cons, ih]
    exact Voice.phase_of_kept_or_releasedTo (s.applyCommit_voice c k)

/-- The next commit of the event context frees a voice or leaves it (R76, R132). -/
theorem State.commitNext_voice (s : State) (k : VoiceIx) :
    s.commitNext.pool[k] = s.pool[k] ∨ s.pool[k].ReleasedTo s.build s.commitNext.pool[k] := by
  cases hp : s.pending with
  | nil => rw [State.commitNext_of_pending_nil hp]; exact .inl rfl
  | cons c cs => rw [State.commitNext_of_pending_cons hp]; exact State.applyCommit_voice { s with pending := cs } c k

theorem State.commitNext_phase (s : State) (k : VoiceIx) : s.commitNext.pool[k].phase = s.pool[k].phase :=
  Voice.phase_of_kept_or_releasedTo (s.commitNext_voice k)

/-- The commits of a message leave every phase, at either granularity (R132). -/
theorem State.issue_phase (s : State) (cs : List Commit) (k : VoiceIx) :
    (s.issue cs).pool[k].phase = s.pool[k].phase := by
  unfold State.issue
  split
  · exact State.foldl_applyCommit_phase _ _ k
  · exact State.commitNext_phase _ k

/-- What a byte can write at most (R41): of the fields the tick context works on, a phase is zeroed at most, and the
position is set only as a trigger sets it. -/
structure State.ByteWrites (s t : State) : Prop where
  seed : t.seed = s.seed
  outLevel : t.outLevel = s.outLevel
  phase : ∀ k : VoiceIx, t.pool[k].phase = s.pool[k].phase ∨ t.pool[k].phase = 0
  working : t.drum = { s.drum with prog := t.drum.prog, seg := t.drum.seg, stage := t.drum.stage, chvol := t.drum.chvol }
  position : s.drum.SamePosition t.drum ∨
    ∃ id, t.drum.prog = some id ∧ t.drum.seg = 0 ∧ t.drum.stage = .uninitialized

/-- The footprint of record commits is within that of a byte. -/
theorem State.ByteWrites.of_commits {s : State} {pool : Vector Voice 20} {cv : Vector Volume 16} {chvol : Volume}
    {pending : List Commit} (h : ∀ k : VoiceIx, pool[k].phase = s.pool[k].phase) :
    s.ByteWrites { s with pool := pool, cv := cv, drum := { s.drum with chvol := chvol }, pending := pending } :=
  ⟨rfl, rfl, fun k => .inl (h k), rfl, .inl ⟨rfl, rfl, rfl⟩⟩

theorem State.ByteWrites.refl (s : State) : s.ByteWrites s := State.ByteWrites.of_commits fun _ => rfl

theorem State.ByteWrites.commitNext (s : State) : s.ByteWrites s.commitNext := by
  rw [State.commitNext_frame]
  exact State.ByteWrites.of_commits s.commitNext_phase

theorem State.ByteWrites.issue (s : State) (cs : List Commit) : s.ByteWrites (s.issue cs) := by
  rw [State.issue_frame]
  exact State.ByteWrites.of_commits (s.issue_phase cs)

theorem State.ByteWrites.trigger (s : State) (id : ProgramId) : s.ByteWrites (s.trigger id) :=
  ⟨rfl, rfl, fun _ => .inl rfl, rfl, .inr ⟨id, rfl, rfl, rfl⟩⟩

/-- An allocation zeroes the phase of the slot it takes, and leaves every other one (R131). -/
theorem State.ByteWrites.allocate (s : State) (ch : Channel) (note : BitVec 7) : s.ByteWrites (s.allocate ch note).1 := by
  cases hf : s.firstFree with
  | none => rw [State.allocate_of_full hf]; exact .refl s
  | some i =>
    rw [State.allocate_of_free hf]
    refine ⟨rfl, rfl, fun k => ?_, rfl, .inl ⟨rfl, rfl, rfl⟩⟩
    rw [State.setVoice_pool_getElem]
    split
    · exact .inr rfl
    · exact .inl rfl

/-- Every message stays within the footprint of a byte (R185 to R194). -/
theorem exec_byteWrites {i : Instr} {s t : State} (h : exec i s = .next t) : s.ByteWrites t := by
  rcases exec_cases h with rfl | ⟨p, rfl⟩ | ⟨ch, v, rfl⟩ | ⟨id, rfl⟩ | ⟨ch, note, -, -, -, -, rfl⟩
  · exact .refl t
  · exact .issue s _
  · exact .issue s _
  · exact .trigger s id
  · exact .allocate s ch _

/-- What a step can do when the next event is a byte (R76, R180 to R183). -/
theorem step_byte_cases {s t : State} {b : Byte} {rest : List Event} (hi : s.inbox = .byte b :: rest)
    (h : step s = .next t) :
    t = s.commitNext ∨ (∃ rx, t = { s with inbox := rest, rx := rx }) ∨
      ∃ i, exec i { s with inbox := rest, rx := .idle } = .next t := by
  rcases step_cases h with ⟨-, ht⟩ | hevent
  · exact .inl ht
  · rcases hevent with ⟨_, hr, -⟩ | ⟨_, _, hr, -⟩ | ⟨_, hr, -⟩ | ⟨_, _, hr, -⟩ |
      ⟨_, _, rx, hr, -, -, ht⟩ | ⟨_, _, i, hr, -, -, hx⟩ <;> cases hi.symm.trans hr
    · exact .inr (.inl ⟨rx, ht⟩)
    · exact .inr (.inr ⟨i, hx⟩)

theorem step_byteWrites {s t : State} {b : Byte} {rest : List Event} (hi : s.inbox = .byte b :: rest)
    (h : step s = .next t) : s.ByteWrites t := by
  rcases step_byte_cases hi h with rfl | ⟨rx, rfl⟩ | ⟨i, hx⟩
  · exact .commitNext s
  · exact ⟨rfl, rfl, fun _ => .inl rfl, rfl, .inl ⟨rfl, rfl, rfl⟩⟩
  · obtain ⟨hseed, hout, hphase, hworking, hposition⟩ := exec_byteWrites hx
    exact ⟨hseed, hout, hphase, hworking, hposition⟩

/-- With an empty inbox, or by the schedule's word, the step makes the next commit (R76). -/
theorem step_of_commit {s : State} (h : s.inbox = [] ∨ ∃ rest, s.inbox = .commit :: rest) :
    step s = .next (State.commitNext { s with inbox := s.inbox.tail }) := by
  rcases h with hi | ⟨rest, hi⟩
  · have hs : { s with inbox := s.inbox.tail } = s := by rw [hi, List.tail_nil, ← hi]
    rw [step_of_inbox_nil hi, hs]
  · simp only [step, State.runNext, hi, State.runEvent, List.tail_cons]

/-- What a step that makes a commit writes (R41, R76). -/
theorem step_commit_frame {s t : State} (hi : s.inbox = [] ∨ ∃ rest, s.inbox = .commit :: rest) (h : step s = .next t) :
    t = { s with pool := t.pool, cv := t.cv, drum := { s.drum with chvol := t.drum.chvol }, inbox := s.inbox.tail,
                 pending := s.pending.tail } ∧
      ∀ k : VoiceIx, t.pool[k] = s.pool[k] ∨ s.pool[k].ReleasedTo s.build t.pool[k] := by
  rw [step_of_commit hi] at h
  cases h
  exact ⟨State.commitNext_frame _, State.commitNext_voice { s with inbox := s.inbox.tail }⟩

/-- Settles O51: the footprints of a tick, of a byte and of a commit, each read off what its step can do. -/
theorem contextsWriteTheirOwnState : Obligations.ContextsWriteTheirOwnState := by
  intro s t h
  refine ⟨fun rest hi => step_tick_frame hi h, fun b rest hi => ?_, fun hi => step_commit_frame hi h⟩
  obtain ⟨hseed, hout, hphase, hworking, hposition⟩ := step_byteWrites hi h
  exact ⟨hseed, hout, hphase, hworking, hposition⟩

end Sys2Proof.Machine
end

section
/-! The tables are read-only (20_memory.md R60): no message, and so no step, writes the build. -/

namespace Sys2Proof.Machine

@[simp] theorem State.allocate_build (s : State) (ch : Channel) (note : BitVec 7) :
    (s.allocate ch note).1.build = s.build := by
  unfold State.allocate
  split <;> rfl

theorem exec_build {i : Instr} {s t : State} (h : exec i s = .next t) : t.build = s.build := by
  rcases exec_cases h with rfl | ⟨p, rfl⟩ | ⟨ch, v, rfl⟩ | ⟨id, rfl⟩ | ⟨ch, note, -, -, -, -, rfl⟩
  · rfl
  · exact State.issue_build s _
  · exact State.issue_build s _
  · exact State.trigger_build s id
  · exact State.allocate_build s ch _

/-- Settles O50: by what a step can do, each case an operation that keeps the build. -/
theorem stepKeepsTables : Obligations.StepKeepsTables := by
  intro s t h
  rcases step_cases h with ⟨-, rfl⟩ | ⟨_, -, rfl⟩ | ⟨_, _, -, rfl⟩ | ⟨_, -, rfl⟩ | ⟨_, _, -, -, rfl⟩ |
    ⟨_, _, _, -, -, -, rfl⟩ | ⟨_, _, _, -, -, -, hx⟩
  · exact State.commitNext_build s
  · exact State.powerUp_build _
  · exact State.seedLoad_build _ _
  · exact State.commitNext_build _
  · exact State.ticked_build _ _
  · rfl
  · have hbuild := exec_build hx
    exact hbuild

end Sys2Proof.Machine
end

section
/-! Record commits (20_memory.md R76): what one writes, and when one still to come is made. -/

namespace Sys2Proof.Machine

/-- A volume write changes its own entry of `CV` and no other (R189). -/
theorem State.setChannelVolume_cv_getElem (s : State) (ch : Channel) (v : Volume) (c : Fin 16) :
    (s.setChannelVolume ch v).cv[c] = if (c : Nat) = ch.toNat then v else s.cv[c] := by
  simp only [State.setChannelVolume_cv, Fin.getElem_fin, Vector.getElem_set, eq_comm]

theorem State.setChannelVolume_cv_same (s : State) (ch : Channel) (v : Volume) :
    (s.setChannelVolume ch v).cv[ch.toNat] = v :=
  Vector.getElem_set_self ch.isLt

/-- Freeing a voice releases that voice and leaves every other one (R132). -/
theorem State.freeVoice_releases_only (s : State) (k j : VoiceIx) :
    if j = k then s.pool[j].ReleasedTo s.build (s.freeVoice k).pool[j] else (s.freeVoice k).pool[j] = s.pool[j] := by
  rw [State.freeVoice_pool_getElem]
  by_cases h : j = k
  · rw [if_pos h, if_pos h.symm]; exact Voice.releasedTo_freed _ _
  · rw [if_neg h, if_neg (Ne.symm h)]

/-- Settles O23: each commit is one named operation, whose frame holds by definition. -/
theorem commitWritesOneRecord : Obligations.CommitWritesOneRecord := fun s =>
  ⟨fun k => ⟨rfl, fun j => s.freeVoice_releases_only k j⟩,
    fun ch v => ⟨rfl, fun c => s.setChannelVolume_cv_getElem ch v c⟩, fun _ => rfl⟩

/-- A byte waits in the inbox while commits are still to come (R76). -/
theorem step_byte_of_pending {s : State} {b : Byte} {rest : List Event} (hi : s.inbox = .byte b :: rest)
    (hp : s.pending ≠ []) : step s = .next s.commitNext := by
  simp only [step, State.runNext, hi, State.runEvent, if_neg hp]

/-- Settles O24: an empty inbox, a waiting byte and the schedule's word each make the first pending commit; a tick leaves
them all. -/
theorem pendingCommitSteps : Obligations.PendingCommitSteps := by
  intro s c more hp
  refine ⟨fun hi => ?_, fun b rest hi => ?_, fun rest hi => ?_, fun rest t hi h => ?_⟩
  · rw [step_of_inbox_nil hi, State.commitNext_of_pending_cons hp]
  · rw [step_byte_of_pending hi (by simp [hp]), State.commitNext_of_pending_cons hp]
  · rw [step_of_commit (.inr ⟨rest, hi⟩), hi, List.tail_cons,
      State.commitNext_of_pending_cons (s := { s with inbox := rest }) hp]
  · obtain ⟨-, -, hpending, -⟩ := step_tick_frame hi h
    rw [hpending, hp]

end Sys2Proof.Machine
end

section
/-! Granularity `record` (20_memory.md R76): the first commit of a message is made in the message's own transition, the
others wait. -/

namespace Sys2Proof.Machine

open Config

/-- The first commit is made now, the others are left to come. -/
theorem State.issue_record_cons {s : State} (hg : s.build.granularity = .record) (hp : s.pending = []) (c : Commit)
    (cs : List Commit) : s.issue (c :: cs) = State.applyCommit { s with pending := cs } c := by
  rw [State.issue_record hg, hp]; rfl

/-- A message that frees a voice issues the commits that free every voice it frees, in slot order (R185, R187, R190,
R192). -/
theorem exec_of_freedBy {i : Instr} {v : Voice} (h : v.freedBy i = true) (s : State) :
    exec i s = .next (s.issue ((s.slots fun w => w.freedBy i).map .freeVoice)) := by
  cases i with
  | noteOff ch note velocity => rfl
  | noteOnVel0 ch note => rfl
  | ccChannelReset ch controller value => rfl
  | pc ch program => rfl
  | _ => cases h

/-- In an ascending list, the elements that meet `p` are the least of them and those above it that do. -/
theorem filter_eq_least_cons {n : Nat} {p : Fin n → Bool} {k : Fin n} (hk : p k = true)
    (hbelow : ∀ j, j < k → p j = false) {l : List (Fin n)} (hl : l.Pairwise (· < ·)) (hmem : k ∈ l) :
    l.filter p = k :: l.filter fun j => decide (k < j) && p j := by
  induction l with
  | nil => cases hmem
  | cons a l ih =>
    obtain ⟨ha, hl⟩ := List.pairwise_cons.1 hl
    by_cases hak : a = k
    · subst hak
      have htail : l.filter p = l.filter fun j => decide (a < j) && p j :=
        List.filter_congr fun j hj => by simp [ha j hj]
      simp [hk, htail]
    · have hkl : k ∈ l := (List.mem_cons.1 hmem).resolve_left (Ne.symm hak)
      have hlt : a < k := ha k hkl
      simp [hbelow a hlt, hlt.not_gt, ih hl hkl]

/-- The slots that meet `p`, from the lowest one on. -/
theorem State.slots_eq_cons {s : State} {p : Voice → Bool} {k : VoiceIx} (hk : p s.pool[k] = true)
    (hbelow : ∀ j : VoiceIx, j < k → p s.pool[j] = false) :
    s.slots p = k :: (List.finRange 20).filter fun j => decide (k < j) && p s.pool[j] :=
  filter_eq_least_cons (p := fun j : VoiceIx => p s.pool[j]) hk hbelow (List.pairwise_lt_finRange 20) (List.mem_finRange k)

/-- Settles O21: the message issues the commits of its slots in ascending order, and the first is made now. -/
theorem recordReleaseFreesOneVoice : Obligations.RecordReleaseFreesOneVoice := by
  intro i s k hg hp hk hbelow
  have hslots := State.slots_eq_cons (p := fun v => v.freedBy i) hk hbelow
  refine ⟨_, exec_of_freedBy hk s, ?_⟩
  rw [hslots, List.map_cons, State.issue_record_cons hg hp]
  refine ⟨rfl, ?_, fun j hj => ?_, rfl⟩
  · have h := State.freeVoice_releases_only s k k
    rwa [if_pos rfl] at h
  · have h := State.freeVoice_releases_only s k j
    rwa [if_neg hj] at h

/-- A 7-bit controller value as a volume (R96). -/
theorem volumeOf_toNat {value : Byte} (h : value.toNat ≤ 127) : (volumeOf value).toNat = value.toNat / 8 := by
  simp only [volumeOf, BitVec.toNat_setWidth, BitVec.toNat_ushiftRight, Nat.shiftRight_eq_div_pow]
  omega

theorem exec_ccVolume_of_le {value : Byte} (h : value.toNat ≤ 127) (ch : Channel) (controller : Byte) (s : State) :
    exec (.ccVolume ch controller value) s = .next (s.writeVolume ch (volumeOf value)) :=
  if_neg (Nat.not_lt.2 h)

/-- On the drum channel the write of `CV[9]` is made now, and that of `D.chvol` is left to come (R189). -/
theorem State.writeVolume_drum_record {s : State} (hg : s.build.granularity = .record) (hp : s.pending = []) (v : Volume) :
    s.writeVolume drumChannel v = State.setChannelVolume { s with pending := [.drumVolume v] } drumChannel v := by
  rw [State.writeVolume, if_pos rfl, State.issue_record_cons hg hp]; rfl

/-- Settles O22: the two commits of a volume on channel 9, one in the message's transition and one in the next. -/
theorem recordVolumeInTwoCommits : Obligations.RecordVolumeInTwoCommits := by
  intro controller value s hg hp hv
  have hexec := exec_ccVolume_of_le hv 9 controller s
  rw [State.writeVolume_drum_record hg hp] at hexec
  have hch : drumChannel.toNat = 9 := rfl
  refine ⟨_, _, hexec, step_of_inbox_nil rfl, rfl, rfl, fun c => ?_, rfl, ?_⟩
  · rw [State.setChannelVolume_cv_getElem, hch]
    split
    · exact volumeOf_toNat hv
    · rfl
  · exact congrArg (fun w : Volume => { s.drum with chvol := w }) (State.setChannelVolume_cv_same _ drumChannel _).symm

end Sys2Proof.Machine
end

section
/-! Both granularities lead to the same state (20_memory.md R76): nothing but the schedule of commits reads the
granularity of the build. -/

namespace Sys2Proof.Machine

open Config

/-- The state on the same build with another commit granularity. -/
def State.atGranularity (s : State) (gr : Granularity) : State :=
  { s with build := { s.build with granularity := gr } }

theorem State.atGranularity_of_build_eq {s t : State} (h : t.build = s.build) (gr : Granularity) :
    t.atGranularity gr = { t with build := (s.atGranularity gr).build } := by
  simp only [State.atGranularity, h]

theorem State.applyCommit_atGranularity (s : State) (gr : Granularity) (c : Commit) :
    (s.atGranularity gr).applyCommit c = (s.applyCommit c).atGranularity gr := by
  cases c <;> rfl

theorem State.drain_atGranularity (s : State) (gr : Granularity) :
    (s.atGranularity gr).drain = s.drain.atGranularity gr :=
  List.foldl_hom (l := s.pending) (init := { s with pending := [] }) (State.atGranularity · gr)
    fun t c => t.applyCommit_atGranularity gr c

/-- At granularity `message` the commits of a message lead at once to where they lead, once made, at any other. -/
theorem State.issue_atGranularity_message (s : State) (cs : List Commit) :
    (s.atGranularity .message).issue cs = (s.issue cs).drain.atGranularity .message := by
  rw [State.issue_message rfl, State.issue_drain]
  exact State.drain_atGranularity { s with pending := s.pending ++ cs } .message

theorem State.allocate_atGranularity (s : State) (gr : Granularity) (ch : Channel) (note : BitVec 7) :
    ((s.atGranularity gr).allocate ch note).1 = (s.allocate ch note).1.atGranularity gr := by
  cases h : s.firstFree with
  | none => rw [State.allocate_of_full h, State.allocate_of_full (s := s.atGranularity gr) h]
  | some i => rw [State.allocate_of_free h, State.allocate_of_free (s := s.atGranularity gr) h]; rfl

@[simp] theorem State.allocate_pending (s : State) (ch : Channel) (note : BitVec 7) :
    (s.allocate ch note).1.pending = s.pending := by
  unfold State.allocate
  split <;> rfl

/-- An outcome with the commits still to come made, read at granularity `message`. -/
def drainedToMessage : Host.Outcome State Fault Refusal → Host.Outcome State Fault Refusal
  | .next t => .next (t.drain.atGranularity .message)
  | .fault r => .fault r
  | .refused r => .refused r

theorem drainedToMessage_issue (s : State) (cs : List Commit) :
    drainedToMessage (.next (s.issue cs)) = .next ((s.atGranularity .message).issue cs) := by
  rw [State.issue_atGranularity_message, drainedToMessage]

theorem drainedToMessage_of_pending_nil {t : State} (h : t.pending = []) :
    drainedToMessage (.next t) = .next (t.atGranularity .message) := by
  rw [drainedToMessage, State.drain_of_pending_nil h]

theorem execNoteOnDrum_atGranularity_message {s : State} (h : s.pending = []) (note velocity : Byte) :
    execNoteOnDrum note velocity (s.atGranularity .message) = drainedToMessage (execNoteOnDrum note velocity s) := by
  have hprog : drumProgram (s.atGranularity .message).build note = drumProgram s.build note := rfl
  unfold execNoteOnDrum
  rw [hprog]
  cases drumProgram s.build note with
  | none => exact (drainedToMessage_of_pending_nil h).symm
  | some id => exact (drainedToMessage_of_pending_nil (t := s.trigger id) h).symm

theorem execNoteOn_atGranularity_message {s : State} (h : s.pending = []) (ch : Channel) (note velocity : Byte) :
    execNoteOn ch note velocity (s.atGranularity .message) = drainedToMessage (execNoteOn ch note velocity s) := by
  have hfind : (s.atGranularity .message).find ch note = s.find ch note := rfl
  unfold execNoteOn
  rw [hfind, State.allocate_atGranularity]
  split
  · exact (drainedToMessage_of_pending_nil h).symm
  · split
    · rfl
    · exact (drainedToMessage_of_pending_nil (by rw [State.allocate_pending, h])).symm

theorem execCcVolume_atGranularity_message (s : State) (ch : Channel) (controller value : Byte) :
    execCcVolume ch controller value (s.atGranularity .message) =
      drainedToMessage (execCcVolume ch controller value s) := by
  unfold execCcVolume
  split
  · rfl
  · exact (drainedToMessage_issue s _).symm

/-- What a message answers at granularity `message` is what it answers at any, once its commits are made (R76). -/
theorem exec_atGranularity_message (i : Instr) {s : State} (h : s.pending = []) :
    exec i (s.atGranularity .message) = drainedToMessage (exec i s) := by
  cases i with
  | noteOff ch note velocity => exact (drainedToMessage_issue s _).symm
  | noteOnVel0 ch note => exact (drainedToMessage_issue s _).symm
  | ccChannelReset ch controller value => exact (drainedToMessage_issue s _).symm
  | pc ch program => exact (drainedToMessage_issue s _).symm
  | noteOnDrum note velocity => exact execNoteOnDrum_atGranularity_message h note velocity
  | noteOn ch note velocity => exact execNoteOn_atGranularity_message h ch note velocity
  | ccVolume ch controller value => exact execCcVolume_atGranularity_message s ch controller value
  | _ => exact (drainedToMessage_of_pending_nil h).symm

/-- Settles O25: the message's answer at `message` is its answer at `record` drained, and a message keeps the build. -/
theorem recordDrainsToMessage : Obligations.RecordDrainsToMessage := by
  intro i s _ hp
  have hm := exec_atGranularity_message i hp
  refine ⟨fun t ht => ?_, fun r hr => ?_⟩
  · have hbuild : t.drain.build = s.build := t.drain_build.trans (exec_build ht)
    rw [ht, drainedToMessage, State.atGranularity_of_build_eq hbuild] at hm
    exact hm
  · rw [hr] at hm
    exact hm

end Sys2Proof.Machine
end

section
/-! The largest amplitude of the NoiseDrum (20_memory.md R63): the last entry of a curve that saturates. -/

namespace Sys2Proof.Machine

open Config

theorem toneEnabled_eq_true_iff (g : Segment) : toneEnabled g = true ↔ g.mixMask[0] = false := by
  simp [toneEnabled]

theorem noiseVote_eq_true_iff (g : Segment) (d : Drum) : noiseVote g d = true ↔ noiseVoteOf g d := by
  cases h : g.mixMask[1] <;> simp [noiseVote, noiseVoteOf, noiseEnabled, h]

theorem toneHigh_eq_true_iff (half period phase : Nat) :
    toneHigh half period phase = true ↔ phase < half ∨ period < phase := by
  simp [toneHigh]

theorem Drum.toneSweep_tonePhase (b : Build) (g : Segment) (d : Drum) : (d.toneSweep b g).tonePhase = d.tonePhase := by
  unfold Drum.toneSweep; dsimp only; split <;> rfl

/-- The tone's vote is the comparison of the advanced phase with the record that the tone path leaves (R156). -/
theorem Drum.tonePath_high_iff (b : Build) (g : Segment) (d : Drum) :
    (d.tonePath b g).2 = true ↔ toneVote b g d.tonePhase (d.tonePath b g).1 := by
  unfold Drum.tonePath toneVote
  split
  · next he =>
    rw [← d.toneSweep_tonePhase b g, forall_prop_of_true ((toneEnabled_eq_true_iff g).1 he)]
    exact toneHigh_eq_true_iff _ _ _
  · next he => simp [mt (toneEnabled_eq_true_iff g).2 he]

theorem Drum.tonedHigh_iff (b : Build) (g : Segment) (d : Drum) :
    d.tonedHigh b g = true ↔ toneVote b g d.tonePhase (d.toned b g) := by
  obtain ⟨-, -, hphase, -⟩ := Drum.prime_frame g d
  rw [← hphase]
  exact Drum.tonePath_high_iff b g ((d.prime g).elapse b)

theorem Drum.combine_amp_of_vote {g : Segment} {d : Drum} (h : noiseVote g d = true) (b : Build) (p : Program) :
    (d.combine b p g).2 = d.envelopeAmp b g := by
  rw [Drum.combine, if_pos h]

theorem Drum.combine_amp_of_not_vote {g : Segment} {d : Drum} (h : noiseVote g d ≠ true) (b : Build) (p : Program) :
    (d.combine b p g).2 = 0 := by
  rw [Drum.combine, if_neg h]

/-- No entry of a drum curve that saturates exceeds its last (R63). -/
theorem drumAmplitude_le_last {b : Build} (hb : b.Saturates) (k : Fin 17) : drumAmplitude b k ≤ b.drumCurve[16] := by
  obtain ⟨hlast, hle⟩ := hb
  rw [hlast]
  exact hle k

theorem Drum.envelopeAmp_le_last {b : Build} (hb : b.Saturates) (g : Segment) (d : Drum) :
    d.envelopeAmp b g ≤ b.drumCurve[16] := by
  unfold Drum.envelopeAmp
  split
  · exact drumAmplitude_le_last hb _
  · split
    · exact Nat.zero_le _
    · exact drumAmplitude_le_last hb _

/-- A sustained segment of volume 15 sounds the last entry of a curve that saturates (R63, R159). -/
theorem Drum.envelopeAmp_sustained_max {b : Build} (hb : b.Saturates) {g : Segment} (he : g.envDuration = 0)
    (hv : g.volume = 15) (d : Drum) : d.envelopeAmp b g = b.drumCurve[16] := by
  have hindex : sustainedIndex g = 15 := by simp [sustainedIndex, hv]
  rw [Drum.envelopeAmp, if_pos he, hindex, hb.1]; rfl

theorem Drum.runSegment_amp_le_last {b : Build} (hb : b.Saturates) (p : Program) (g : Segment) (d : Drum) (seed : Seed) :
    (d.runSegment b p g seed).amp ≤ b.drumCurve[16] := by
  cases ht : d.tonedHigh b g with
  | false => rw [Drum.runSegment_low ht]; exact Nat.zero_le _
  | true =>
    rw [Drum.runSegment_high ht]
    by_cases hn : noiseVote g ((d.toned b g).noisePath b g seed).1 = true
    · rw [Drum.combine_amp_of_vote hn]; exact Drum.envelopeAmp_le_last hb g _
    · rw [Drum.combine_amp_of_not_vote hn]; exact Nat.zero_le _

/-- Step 6 leaves the held bit, and so the noise's vote (R158). -/
theorem Drum.noiseVoteOf_combine_iff (b : Build) (p : Program) (g : Segment) (d : Drum) :
    noiseVoteOf g (d.combine b p g).1 ↔ noiseVoteOf g d := by
  rw [Drum.combine_frame]; rfl

/-- Both votes 1, as the record that the tick leaves tells them, sound the envelope of the noise path's record (R158). -/
theorem Drum.runSegment_amp_of_votes {b : Build} {p : Program} {g : Segment} {d : Drum} {seed : Seed}
    (ht : toneVote b g d.tonePhase (d.runSegment b p g seed).drum) (hn : noiseVoteOf g (d.runSegment b p g seed).drum) :
    (d.runSegment b p g seed).amp = ((d.toned b g).noisePath b g seed).1.envelopeAmp b g := by
  cases hh : d.tonedHigh b g with
  | false =>
    rw [Drum.runSegment_low hh] at ht
    rw [(Drum.tonedHigh_iff b g d).2 ht] at hh
    cases hh
  | true =>
    rw [Drum.runSegment_high hh] at hn ⊢
    have hvote := (noiseVote_eq_true_iff g _).2 ((Drum.noiseVoteOf_combine_iff b p g _).1 hn)
    exact Drum.combine_amp_of_vote hvote b p

/-- Settles O41: every amplitude is 0 or an entry of the curve, and a sustained volume of 15 reads the entry equal to the
last. -/
theorem drumAmplitudeSaturates : Obligations.DrumAmplitudeSaturates := by
  intro b d seed o hb ho
  rcases drumTick_cases ho with ⟨hfin, rfl⟩ | ⟨-, p, g, hc, rfl⟩
  · exact ⟨Nat.zero_le _, fun _ _ hs => absurd hfin hs⟩
  · refine ⟨Drum.runSegment_amp_le_last hb p g d seed, fun p' g' _ hc' he hv ht hn => ?_⟩
    cases hc.symm.trans hc'
    rw [Drum.runSegment_amp_of_votes ht hn]
    exact Drum.envelopeAmp_sustained_max hb he hv _

end Sys2Proof.Machine
end

section
/-! The byte encoding of messages (30_encoding.md R90 to R105): what a status byte, given by its two nibbles, decodes to. -/

namespace Sys2Proof.Machine

theorem messageLength_statusByte (op : BitVec 4) (ch : Channel) :
    messageLength (statusByte op ch) =
      if op = 0x8 ∨ op = 0x9 ∨ op = 0xB then 3 else if op = 0xC then 2 else 1 := by
  rw [messageLength, statusOp_statusByte]

/-- The high nibble holds the bit that tells a status from a data byte (R90). -/
@[simp] theorem msb_statusByte (op : BitVec 4) (ch : Channel) : (statusByte op ch).msb = op.msb := by
  revert op ch; decide

theorem statusOp_toNat (b : Byte) : (statusOp b).toNat = b.toNat / 16 := by
  simp only [statusOp, BitVec.extractLsb'_toNat, Nat.shiftRight_eq_div_pow]
  omega

theorem statusOp_eq_iff (b : Byte) (op : BitVec 4) : statusOp b = op ↔ b.toNat / 16 = op.toNat := by
  rw [← BitVec.toNat_inj, statusOp_toNat]

theorem messageLength_eq_ite_toNat (b : Byte) :
    messageLength b =
      if b.toNat / 16 = 0x8 ∨ b.toNat / 16 = 0x9 ∨ b.toNat / 16 = 0xB then 3
      else if b.toNat / 16 = 0xC then 2 else 1 := by
  simp only [messageLength, statusOp_eq_iff]; rfl

theorem msb_zero_append (data : BitVec 7) : (0#1 ++ data : Byte).msb = false := by
  revert data; decide

/-- A byte below 0x80 is its seven low bits (R194). -/
theorem zero_append_extractLsb'_of_msb {b : Byte} (h : b.msb = false) : 0#1 ++ b.extractLsb' 0 7 = b := by
  revert b; decide

end Sys2Proof.Machine

namespace Sys2Proof

open Machine

theorem wellFormed_noteOn_iff (ch : Channel) (note velocity : Byte) :
    (Instr.noteOn ch note velocity).wellFormed = true ↔ ch ≠ Config.drumChannel ∧ velocity ≠ 0 := by
  simp [Instr.wellFormed]

theorem wellFormed_noteOnVel0_iff (ch : Channel) (note : Byte) :
    (Instr.noteOnVel0 ch note).wellFormed = true ↔ ch ≠ Config.drumChannel := by
  simp [Instr.wellFormed]

theorem wellFormed_ccNop_iff (ch : Channel) (controller value : Byte) :
    (Instr.ccNop ch controller value).wellFormed = true ↔
      ¬ isVolumeController controller = true ∧ ¬ isResetController controller = true := by
  simp [Instr.wellFormed]

theorem decodeThree_noteOff (ch : Channel) (d1 d2 : Byte) : decodeThree (statusByte 0x8 ch) d1 d2 = .noteOff ch d1 d2 := by
  simp [decodeThree]

theorem decodeThree_noteOn (ch : Channel) (d1 d2 : Byte) :
    decodeThree (statusByte 0x9 ch) d1 d2 =
      if ch = Config.drumChannel then .noteOnDrum d1 d2
      else if d2 = 0 then .noteOnVel0 ch d1 else .noteOn ch d1 d2 := by
  simp [decodeThree]

theorem decodeThree_control (ch : Channel) (d1 d2 : Byte) :
    decodeThree (statusByte 0xB ch) d1 d2 =
      if isVolumeController d1 then .ccVolume ch d1 d2
      else if isResetController d1 then .ccChannelReset ch d1 d2 else .ccNop ch d1 d2 := by
  simp [decodeThree]

theorem decodeOne_statusByte {op : BitVec 4} (h : op.msb = true) (ch : Channel) :
    decodeOne (statusByte op ch) =
      if op = 0xA then .skipStatusA ch else if op = 0xD then .skipStatusD ch
      else if op = 0xE then .skipStatusE ch else .skipStatusF ch := by
  simp [decodeOne, h]

theorem decodeOne_data (data : BitVec 7) : decodeOne (0#1 ++ data) = .skipData data := by
  revert data; decide

/-! ## From a message to its bytes and back -/

theorem decode_encode_three {i : Instr} {b d1 d2 : Byte} (he : encode i = [b, d1, d2]) (hl : messageLength b = 3)
    (hd : decodeThree b d1 d2 = i) (rest : List Byte) : decode (encode i ++ rest) = .instr i rest := by
  rw [he, ← hd]; exact decode_three hl d1 d2 rest

theorem decode_encode_one {i : Instr} {b : Byte} (he : encode i = [b]) (hl : messageLength b = 1)
    (hd : decodeOne b = i) (rest : List Byte) : decode (encode i ++ rest) = .instr i rest := by
  rw [he, ← hd]; exact decode_one hl rest

/-- Settles O1: per message, the status byte announces the length (R90), and the row's condition decides the tests that the
decoder makes on channel, velocity and controller (R93, R97). -/
theorem decodeOfEncode : Obligations.DecodeOfEncode := by
  intro i rest hw
  cases i with
  | noteOff ch note velocity =>
    exact decode_encode_three rfl (messageLength_statusByte 0x8 ch) (decodeThree_noteOff ch _ _) rest
  | noteOnDrum note velocity =>
    refine decode_encode_three rfl (messageLength_statusByte 0x9 _) ?_ rest
    rw [decodeThree_noteOn, if_pos rfl]
  | noteOn ch note velocity =>
    obtain ⟨hch, hv⟩ := (wellFormed_noteOn_iff ch note velocity).1 hw
    refine decode_encode_three rfl (messageLength_statusByte 0x9 ch) ?_ rest
    rw [decodeThree_noteOn, if_neg hch, if_neg hv]
  | noteOnVel0 ch note =>
    have hch := (wellFormed_noteOnVel0_iff ch note).1 hw
    refine decode_encode_three rfl (messageLength_statusByte 0x9 ch) ?_ rest
    rw [decodeThree_noteOn, if_neg hch, if_pos rfl]
  | ccVolume ch controller value =>
    have hvol : isVolumeController controller = true := hw
    refine decode_encode_three rfl (messageLength_statusByte 0xB ch) ?_ rest
    rw [decodeThree_control, if_pos hvol]
  | ccChannelReset ch controller value =>
    have hreset : isResetController controller = true := hw
    have hvol : ¬ isVolumeController controller = true := fun h => by
      simp [isVolumeController_not_reset controller h] at hreset
    refine decode_encode_three rfl (messageLength_statusByte 0xB ch) ?_ rest
    rw [decodeThree_control, if_neg hvol, if_pos hreset]
  | ccNop ch controller value =>
    obtain ⟨hvol, hreset⟩ := (wellFormed_ccNop_iff ch controller value).1 hw
    refine decode_encode_three rfl (messageLength_statusByte 0xB ch) ?_ rest
    rw [decodeThree_control, if_neg hvol, if_neg hreset]
  | pc ch program =>
    have h := decode_two (messageLength_statusByte 0xC ch) program rest
    rwa [statusChannel_statusByte] at h
  | skipStatusA low => exact decode_encode_one rfl (messageLength_statusByte 0xA low) (decodeOne_statusByte rfl low) rest
  | skipStatusD low => exact decode_encode_one rfl (messageLength_statusByte 0xD low) (decodeOne_statusByte rfl low) rest
  | skipStatusE low => exact decode_encode_one rfl (messageLength_statusByte 0xE low) (decodeOne_statusByte rfl low) rest
  | skipStatusF low => exact decode_encode_one rfl (messageLength_statusByte 0xF low) (decodeOne_statusByte rfl low) rest
  | skipData data =>
    exact decode_encode_one rfl ((messageLength_eq_one_iff _).2 (.inl (msb_zero_append data))) (decodeOne_data data) rest

/-! ## From bytes to a message and back -/

/-- The branches of the decoder establish the condition of the row they choose (R93, R97). -/
theorem decodeThree_wellFormed (b d1 d2 : Byte) : (decodeThree b d1 d2).wellFormed = true := by
  unfold decodeThree
  split
  · rfl
  · split
    · split
      · rfl
      · next hch =>
        split
        · exact (wellFormed_noteOnVel0_iff _ _).2 hch
        · next hv => exact (wellFormed_noteOn_iff _ _ _).2 ⟨hch, hv⟩
    · split
      · next hvol => exact hvol
      · next hvol =>
        split
        · next hreset => exact hreset
        · next hreset => exact (wellFormed_ccNop_iff _ _ _).2 ⟨hvol, hreset⟩

theorem decodeOne_wellFormed (b : Byte) : (decodeOne b).wellFormed = true := by
  unfold decodeOne
  split
  · rfl
  · split
    · rfl
    · split
      · rfl
      · split <;> rfl

theorem encode_decodeThree {b : Byte} (h : messageLength b = 3) (d1 d2 : Byte) :
    encode (decodeThree b d1 d2) = [b, d1, d2] := by
  obtain ⟨op, ch, rfl⟩ : ∃ op ch, b = statusByte op ch := ⟨_, _, (statusByte_eta b).symm⟩
  rw [messageLength_eq_three_iff, statusOp_statusByte] at h
  rcases h with rfl | rfl | rfl
  · rw [decodeThree_noteOff]; rfl
  · rw [decodeThree_noteOn]
    split
    · next hch => rw [hch]; rfl
    · split
      · next hv => rw [hv]; rfl
      · rfl
  · rw [decodeThree_control]
    split
    · rfl
    · split <;> rfl

theorem encode_decodeOne {b : Byte} (h : messageLength b = 1) : encode (decodeOne b) = [b] := by
  rcases (messageLength_eq_one_iff b).1 h with hb | hb
  · rw [decodeOne, if_pos hb, encode, zero_append_extractLsb'_of_msb hb]
  · obtain ⟨op, ch, rfl⟩ : ∃ op ch, b = statusByte op ch := ⟨_, _, (statusByte_eta b).symm⟩
    rw [statusOp_statusByte] at hb
    rcases hb with rfl | rfl | rfl | rfl <;> rw [decodeOne_statusByte rfl] <;> rfl

/-- Settles O2: by the three lengths of a message; each decoder reads a well-formed message whose encoding is the bytes
taken. -/
theorem encodeOfDecode : Obligations.EncodeOfDecode := by
  intro bytes i rest h
  rcases decode_cases h with ⟨b, d1, d2, hl, rfl, rfl⟩ | ⟨b, d1, hl, rfl, rfl⟩ | ⟨b, hl, rfl, rfl⟩
  · exact ⟨decodeThree_wellFormed b d1 d2, by rw [encode_decodeThree hl]; rfl⟩
  · have hb : statusByte 0xC (statusChannel b) = b :=
      (statusByte_statusChannel_eq_iff _ b).2 ((messageLength_eq_two_iff b).1 hl)
    exact ⟨rfl, by rw [encode, hb]; rfl⟩
  · exact ⟨decodeOne_wellFormed b, by rw [encode_decodeOne hl]; rfl⟩

/-! ## The length of a message -/

/-- Of three bytes or more the decoder takes as many as the first announces (R90, R99). -/
theorem decode_takes_messageLength (b d1 d2 : Byte) (rest : List Byte) :
    ∃ i, decode (b :: d1 :: d2 :: rest) = .instr i ((b :: d1 :: d2 :: rest).drop (messageLength b)) := by
  rcases messageLength_cases b with h | h | h
  · exact ⟨_, by rw [decode_three h, h]; rfl⟩
  · exact ⟨_, by rw [decode_two h, h]; rfl⟩
  · exact ⟨_, by rw [decode_one h, h]; rfl⟩

/-- Settles O3: the announced length, read off the high nibble in plain arithmetic. -/
theorem lengthFromStatusNibble : Obligations.LengthFromStatusNibble := by
  intro b d1 d2 rest
  obtain ⟨i, hi⟩ := decode_takes_messageLength b d1 d2 rest
  refine ⟨i, hi.trans (congrArg (Decoded.instr i) ?_)⟩
  rw [messageLength_eq_ite_toNat]
  split
  · rfl
  · split <;> rfl

end Sys2Proof
end

section
/-! The pseudo-random generator (40_prng.md R120 to R124): the recurrence, the seed load, and the steps that move `SEED`. -/

namespace Sys2Proof.Machine

open Config

/-! ## The recurrence and the seed load -/

theorem prngStep_toNat (seed : Seed) : (prngStep seed).toNat = (seed.toNat * 9 + 0x3711) % 65536 := by
  rw [prngStep]; bv_omega

/-- The high 8 bits of a seed as a number (R120). -/
theorem prngByte_toNat (seed : Seed) : (prngByte seed).toNat = seed.toNat / 256 := by
  simp only [prngByte, BitVec.extractLsb'_toNat, Nat.shiftRight_eq_div_pow]
  omega

/-- Settles O26: the recurrence in naturals, and the byte read off the new seed. -/
theorem prngNext_toNat : Obligations.PrngNext := fun seed =>
  ⟨prngStep_toNat seed, by rw [prngNext, prngByte_toNat, prngStep_toNat]⟩

/-- Settles O28: the event is one named operation, which writes `SEED` alone. -/
theorem seedLoadSetsSeedOnly : Obligations.SeedLoadSetsSeedOnly := by
  intro s v rest hi
  simp only [step, State.runNext, hi, State.runEvent, State.seedLoad]

/-! ## The draw -/

theorem noiseEnabled_eq_true_iff (g : Segment) : noiseEnabled g = true ↔ g.mixMask[1] = false := by
  simp [noiseEnabled]

theorem Drum.noiseSweep_noisePhase (b : Build) (g : Segment) (d : Drum) :
    (d.noiseSweep b g).noisePhase = d.noisePhase := by
  unfold Drum.noiseSweep; dsimp only; split <;> rfl

/-- A sample that moves the seed has drawn: the phase reached the period, which the sample leaves (R157). -/
theorem Drum.noiseSample_draws {b : Build} {g : Segment} {d : Drum} {seed : Seed}
    (h : (d.noiseSample b g seed).2 ≠ seed) :
    (d.noiseSample b g seed).1.noisePeriod ≤ addMod b d.noisePhase b.drumPhaseInc ∧
      (d.noiseSample b g seed).2 = prngStep seed := by
  unfold Drum.noiseSample at h ⊢
  dsimp only at h ⊢
  split at h
  · next hp => rw [if_pos hp]; exact ⟨hp, rfl⟩
  · exact absurd rfl h

/-- A noise path that moves the seed is enabled, and its sample has drawn (R124, R157). -/
theorem Drum.noisePath_draws {b : Build} {g : Segment} {d : Drum} {seed : Seed} (h : (d.noisePath b g seed).2 ≠ seed) :
    g.mixMask[1] = false ∧ (d.noisePath b g seed).1.noisePeriod ≤ addMod b d.noisePhase b.drumPhaseInc ∧
      (d.noisePath b g seed).2 = prngStep seed := by
  unfold Drum.noisePath at h ⊢
  split at h
  · next he =>
    obtain ⟨hp, hseed⟩ := Drum.noiseSample_draws h
    rw [Drum.noiseSweep_noisePhase] at hp
    rw [if_pos he]
    exact ⟨(noiseEnabled_eq_true_iff g).1 he, hp, hseed⟩
  · exact absurd rfl h

theorem Drum.toned_noisePhase (b : Build) (g : Segment) (d : Drum) : (d.toned b g).noisePhase = d.noisePhase := by
  obtain ⟨-, -, -, hphase, -⟩ := Drum.prime_frame g d
  rw [Drum.toned, Drum.tonePath_frame]; exact hphase

/-- The noise path leaves the tone's own fields, and so the tone's vote (R157). -/
theorem Drum.toneVote_noisePath_iff (b : Build) (g : Segment) (phase : Nat) (d : Drum) (seed : Seed) :
    toneVote b g phase (d.noisePath b g seed).1 ↔ toneVote b g phase d := by
  rw [Drum.noisePath_frame]; rfl

/-- Step 6 leaves the tone's own fields, and so the tone's vote (R158). -/
theorem Drum.toneVote_combine_iff (b : Build) (p : Program) (g : Segment) (phase : Nat) (d : Drum) :
    toneVote b g phase (d.combine b p g).1 ↔ toneVote b g phase d := by
  rw [Drum.combine_frame]; rfl

theorem Drum.combine_noisePeriod (b : Build) (p : Program) (g : Segment) (d : Drum) :
    (d.combine b p g).1.noisePeriod = d.noisePeriod := by
  rw [Drum.combine_frame]

/-- A segment's tick that moves the seed: the noise path ran, which takes a high tone, and drew (R124, R156, R157). -/
theorem Drum.runSegment_draws {b : Build} {p : Program} {g : Segment} {d : Drum} {seed : Seed}
    (h : (d.runSegment b p g seed).seed ≠ seed) :
    g.mixMask[1] = false ∧ toneVote b g d.tonePhase (d.runSegment b p g seed).drum ∧
      (d.runSegment b p g seed).drum.noisePeriod ≤ addMod b d.noisePhase b.drumPhaseInc ∧
      (d.runSegment b p g seed).seed = prngStep seed := by
  cases ht : d.tonedHigh b g with
  | false => rw [Drum.runSegment_low ht] at h; exact absurd rfl h
  | true =>
    rw [Drum.runSegment_high ht] at h ⊢
    obtain ⟨hmask, hperiod, hseed⟩ := Drum.noisePath_draws h
    rw [Drum.toned_noisePhase] at hperiod
    refine ⟨hmask, ?_, ?_, hseed⟩
    · rw [Drum.toneVote_combine_iff, Drum.toneVote_noisePath_iff]
      exact (Drum.tonedHigh_iff b g d).1 ht
    · rw [Drum.combine_noisePeriod]; exact hperiod

/-! ## The steps that move `SEED` -/

/-- Settles O29: of all a step can do, only a reset, a seed load and the tick's one draw write `SEED`. -/
theorem seedMovesOnlyOnNoiseDraw : Obligations.SeedMovesOnlyOnNoiseDraw := by
  intro s t h hne
  rcases step_cases h with ⟨-, rfl⟩ | ⟨rest, hi, rfl⟩ | ⟨v, rest, hi, rfl⟩ | ⟨_, -, rfl⟩ | ⟨rest, o, hi, ho, rfl⟩ |
    ⟨_, _, _, -, -, -, rfl⟩ | ⟨_, _, _, -, -, -, hx⟩
  · exact absurd (State.commitNext_seed s) hne
  · exact .inr (.inl ⟨rest, hi, State.powerUp_seed _⟩)
  · exact .inl ⟨v, rest, hi, State.seedLoad_seed _ _⟩
  · exact absurd (State.commitNext_seed _) hne
  · rw [State.ticked_seed] at hne
    rcases drumTick_cases ho with ⟨-, rfl⟩ | ⟨hstage, p, g, hcurrent, rfl⟩
    · exact absurd rfl hne
    · obtain ⟨hmask, hvote, hperiod, hseed⟩ := Drum.runSegment_draws hne
      refine .inr (.inr ⟨rest, p, g, hi, hstage, hcurrent, hmask, ?_⟩)
      rw [State.ticked_seed, State.ticked_drum, hseed, prngStep_toNat]
      exact ⟨hvote, hperiod, rfl⟩
  · exact absurd rfl hne
  · exact absurd (exec_byteWrites hx).seed hne

end Sys2Proof.Machine
end

section
/-! The voice pool (41_voice_pool.md): what a releasing message leaves once its commits are made (R132, R133), and what a
tick does to one voice (R134). -/

namespace Sys2Proof.Machine

open Config

/-- Note Off and the Note On of velocity 0 are one action (R185, R187). -/
theorem exec_releases {ch : Channel} {note velocity : Byte} {i : Instr}
    (h : i = .noteOff ch note velocity ∨ i = .noteOnVel0 ch note) (s : State) : exec i s = .next (s.release ch note) := by
  rcases h with rfl | rfl
  · rfl
  · rfl

/-- A channel-reset controller and Program Change are one action (R190, R192). -/
theorem exec_releasesChannel {ch : Channel} {d1 d2 : Byte} {i : Instr}
    (h : i = .ccChannelReset ch d1 d2 ∨ i = .pc ch d1) (s : State) : exec i s = .next (s.releaseChannel ch) := by
  rcases h with rfl | rfl
  · rfl
  · rfl

/-- The pool alone changes when the voices that meet `p` are freed: each of them is released, every other one is kept
(R132, R133). -/
theorem State.freeing_drain_releases_only {s : State} (h : s.pending = []) (p : Voice → Bool) :
    s.SameButPool (s.issue ((s.slots p).map .freeVoice)).drain ∧
      ∀ k : VoiceIx, if p s.pool[k] = true
        then s.pool[k].ReleasedTo s.build (s.issue ((s.slots p).map .freeVoice)).drain.pool[k]
        else (s.issue ((s.slots p).map .freeVoice)).drain.pool[k] = s.pool[k] := by
  rw [State.freeing_drain h p]
  refine ⟨rfl, fun k => ?_⟩
  rw [Fin.getElem_fin (Vector.ofFn _), Vector.getElem_ofFn]
  split
  · exact Voice.releasedTo_freed _ _
  · rfl

/-- Settles O10: the message frees the slots that hold the pair, by their commits. -/
theorem noteOffReleasesPair : Obligations.NoteOffReleasesPair := by
  intro ch note velocity s i hi hp
  obtain ⟨hsame, hpool⟩ := State.freeing_drain_releases_only hp fun v => v.holds ch note
  simp only [Voice.holds_iff] at hpool
  exact ⟨_, exec_releases hi s, s.issue_whole _, hsame, hpool⟩

/-- Settles O11: the list of slots to free is empty, and issuing no commit is the state itself. -/
theorem releaseOfUnboundPairIsNoOp : Obligations.ReleaseOfUnboundPairIsNoOp := by
  intro ch note velocity s hp hunbound
  have hrelease : s.release ch note = s :=
    State.issue_slots_nil hp fun k => Bool.eq_false_iff.2 (mt (Voice.holds_iff _ ch note).1 (hunbound k))
  constructor
  · rw [exec_releases (velocity := velocity) (.inl rfl), hrelease]
  · rw [exec_releases (velocity := velocity) (.inr rfl), hrelease]

/-- Settles O12: the message frees the slots bound on the channel, by their commits. -/
theorem channelReleaseFreesChannel : Obligations.ChannelReleaseFreesChannel := by
  intro ch d1 d2 s i hi hp
  obtain ⟨hsame, hpool⟩ := State.freeing_drain_releases_only hp fun v => v.onChannel ch
  simp only [Voice.onChannel_iff] at hpool
  exact ⟨_, exec_releasesChannel hi s, s.issue_whole _, hsame, hpool⟩

/-- A tick ticks every voice of the pool (R135, R220). -/
theorem step_tick_voice {s t : State} {rest : List Event} (hi : s.inbox = .tick :: rest) (h : step s = .next t)
    (k : VoiceIx) : t.pool[k] = (s.pool[k].tick s.build).1 := by
  rw [step_tick hi] at h
  obtain ⟨o, -, rfl⟩ := State.tick_eq_next_iff.1 h
  rw [State.ticked_pool, tickPool_getElem]

theorem voiceHigh_eq_true_iff (half full phase : Nat) (en : Bool) :
    voiceHigh half full phase en = true ↔ en = true ∧ (phase < half ∨ full < phase) := by
  rw [voiceHigh, Bool.and_eq_true, toneHigh_eq_true_iff, and_comm]

/-- The output bit of a voice (R134). -/
theorem Voice.tick_high_iff (v : Voice) (b : Build) :
    (v.tick b).2 = true ↔ v.bound = true ∧ v.en = true ∧ (v.advanced b < v.half ∨ v.full < v.advanced b) := by
  cases hb : v.bound with
  | false => simp [Voice.tick_free hb]
  | true => simp [Voice.tick, hb, voiceHigh_eq_true_iff]

/-- Settles O30: a tick's pool is each voice ticked, and the tick of one voice is read off branch by branch of R134. -/
theorem voicePhaseAccumulates : Obligations.VoicePhaseAccumulates := by
  intro s t rest hi h k
  dsimp only
  rw [step_tick_voice hi h k, ← Voice.advanced_eq]
  refine ⟨?_, Voice.tick_high_iff _ _⟩
  split
  · next hfree => rw [Voice.tick_free hfree]
  · next hbound =>
    rw [Bool.not_eq_false] at hbound
    split
    · next hhalf => rw [Voice.tick_below hbound hhalf]
    · next hhalf =>
      split
      · next hfull => rw [Voice.tick_past hbound hhalf hfull]
      · next hfull => rw [Voice.tick_between hbound hhalf hfull]

end Sys2Proof.Machine
end

section
/-! The NoiseDrum (42_noise_drum.md R150 to R160): how its stage moves, and what one tick of a segment leaves and
sounds. -/

namespace Sys2Proof.Machine

open Config

/-! ## The stage -/

/-- `advance_segment` reads of a record only its place in the program (R151). -/
theorem Drum.advancesTo_advanceSegment_of_eq {d e : Drum} (hprog : e.prog = d.prog) (hseg : e.seg = d.seg) (p : Program) :
    d.AdvancesTo p (e.advanceSegment p) := by
  have hadv := e.advancesTo_advanceSegment p
  rwa [Drum.AdvancesTo, hprog, hseg] at hadv

/-- Where a tick of the NoiseDrum can leave the sequencer: where it was when finished, at a running segment, or where
`advance_segment` leads (R151, R153). -/
theorem drumTick_position {b : Build} {d : Drum} {seed : Seed} {o : DrumOut} (h : drumTick b d seed = some o) :
    (d.stage = .finished ∧ o.drum = d) ∨ (d.stage ≠ .finished ∧ o.drum.stage = .running) ∨
      ∃ id, d.prog = some id ∧ d.AdvancesTo b.program[id] o.drum := by
  rcases drumTick_cases h with ⟨hfin, rfl⟩ | ⟨hfin, p, g, hc, rfl⟩
  · exact .inl ⟨hfin, rfl⟩
  · obtain ⟨id, hprog, rfl, -⟩ := Drum.current_eq_some_iff.1 hc
    obtain ⟨e, heprog, heseg, -, hstage, -, he | he⟩ := Drum.runSegment_drum b b.program[id] g d seed
    · exact .inr (.inl ⟨hfin, by rw [he, hstage hfin]⟩)
    · exact .inr (.inr ⟨id, hprog, he ▸ Drum.advancesTo_advanceSegment_of_eq heprog heseg b.program[id]⟩)

/-- A record commit leaves the sequencer position (R76). -/
theorem State.commitNext_samePosition (s : State) : s.drum.SamePosition s.commitNext.drum := by
  rw [State.commitNext_frame]; exact ⟨rfl, rfl, rfl⟩

/-- Everything a step can do to the sequencer position: keep it, reset it, tick it, or trigger a program (R152). -/
theorem step_position {s t : State} (h : step s = .next t) :
    (s.drum.SamePosition t.drum ∧ ∀ rest, s.inbox ≠ .tick :: rest) ∨
      (∃ rest, s.inbox = .reset :: rest ∧ t.drum.stage = .finished) ∨
      (∃ rest o, s.inbox = .tick :: rest ∧ drumTick s.build s.drum s.seed = some o ∧ t.drum = o.drum) ∨
      ∃ b rest id, s.inbox = .byte b :: rest ∧ t.drum.prog = some id ∧ t.drum.seg = 0 ∧ t.drum.stage = .uninitialized := by
  rcases step_cases h with ⟨hi, rfl⟩ | ⟨rest, hi, rfl⟩ | ⟨v, rest, hi, rfl⟩ | ⟨rest, hi, rfl⟩ | ⟨rest, o, hi, ho, rfl⟩ |
    ⟨_, _, _, hi, -, -, rfl⟩ | ⟨b, rest, _, hi, -, -, hx⟩
  · refine .inl ⟨s.commitNext_samePosition, ?_⟩
    rcases hi with hi | ⟨⟨_, _, hi⟩, -⟩ <;> simp [hi]
  · exact .inr (.inl ⟨rest, hi, rfl⟩)
  · exact .inl ⟨⟨rfl, rfl, rfl⟩, by simp [hi]⟩
  · exact .inl ⟨State.commitNext_samePosition _, by simp [hi]⟩
  · exact .inr (.inr (.inl ⟨rest, o, hi, ho, rfl⟩))
  · exact .inl ⟨⟨rfl, rfl, rfl⟩, by simp [hi]⟩
  · rcases (exec_byteWrites hx).position with hsame | ⟨id, htrigger⟩
    · exact .inl ⟨hsame, by simp [hi]⟩
    · exact .inr (.inr (.inr ⟨b, rest, id, hi, htrigger⟩))

/-- The stage after `advance_segment`: uninitialized at the next segment, finished at the last (R151). -/
theorem Drum.AdvancesTo.stage_cases {p : Program} {d e : Drum} (h : d.AdvancesTo p e) :
    (e.stage = .uninitialized ∧ e.seg = d.seg + 1 ∧ e.seg < p.rest.length + 1) ∨
      (e.stage = .finished ∧ e.seg = d.seg ∧ p.rest.length + 1 ≤ d.seg + 1) := by
  obtain ⟨-, h⟩ := h
  split at h
  · next hlt =>
    obtain ⟨hseg, hstage⟩ := h
    exact .inl ⟨hstage, hseg, hseg ▸ hlt⟩
  · next hge =>
    obtain ⟨hseg, hstage⟩ := h
    exact .inr ⟨hstage, hseg, Nat.le_of_not_lt hge⟩

/-- Settles O42: by what a step can do to the position, and a tick moves it only to a running segment or by
`advance_segment`. -/
theorem stageTransitions : Obligations.StageTransitions := by
  intro s t h
  rcases step_position h with ⟨⟨hprog, hseg, hstage⟩, htick⟩ | ⟨rest, hi, hfin⟩ | ⟨rest, o, hi, ho, ht⟩ |
    ⟨b, rest, id, hi, hprog, hseg, hstage⟩
  · exact ⟨fun hr => .inl (hstage ▸ hr), fun hf => .inl (hstage ▸ hf), fun _ => .inl ⟨⟨hprog, hseg, hstage⟩, htick⟩⟩
  · refine ⟨?_, fun _ => .inr (.inl ⟨rest, hi⟩), ?_⟩ <;> simp [hfin]
  · rw [ht]
    rcases drumTick_position ho with ⟨hfin, hsame⟩ | ⟨hfin, hrun⟩ | ⟨id, hprog, hadv⟩
    · refine ⟨?_, fun _ => .inl hfin, ?_⟩ <;> simp [hsame, hfin]
    · refine ⟨fun _ => ?_, ?_, ?_⟩
      · cases hs : s.drum.stage with
        | uninitialized => exact .inr ⟨rfl, rest, hi⟩
        | running => exact .inl rfl
        | finished => exact absurd hs hfin
      · simp [hrun]
      · simp [hrun]
    · have hprog' : o.drum.prog = some id := hadv.1.trans hprog
      rcases hadv.stage_cases with ⟨hstage, hseg, hlt⟩ | ⟨hstage, hseg, hle⟩
      · refine ⟨?_, ?_, fun _ => .inr (.inr ⟨rest, id, hi, hprog, hprog', hseg, hlt⟩)⟩ <;> simp [hstage]
      · refine ⟨?_, fun _ => .inr (.inr ⟨rest, id, hi, hprog, hprog', hseg, hle⟩), ?_⟩ <;> simp [hstage]
  · refine ⟨?_, ?_, fun _ => .inr (.inl ⟨b, rest, id, hi, hprog, hseg⟩)⟩ <;> simp [hstage]

/-! ## Silence and priming -/

/-- A primed segment is not primed again (R154). -/
theorem Drum.prime_prime (g : Segment) (d : Drum) : (d.prime g).prime g = d.prime g := by
  by_cases h : d.stage = .uninitialized
  · exact Drum.prime_of_running (Drum.prime_stage (by simp [h]) g) g
  · simp [Drum.prime, h]

/-- The tick of the primed record is the tick that primes (R154). -/
theorem Drum.runSegment_prime (b : Build) (p : Program) (g : Segment) (d : Drum) (seed : Seed) :
    (d.prime g).runSegment b p g seed = d.runSegment b p g seed := by
  rw [Drum.runSegment, Drum.prime_prime, Drum.runSegment]

theorem drumTick_of_finished {d : Drum} (h : d.stage = .finished) (b : Build) (seed : Seed) :
    drumTick b d seed = some { drum := d, seed := seed, amp := 0 } := by
  rw [drumTick, if_pos h]

theorem drumTick_of_current {b : Build} {d : Drum} {p : Program} {g : Segment} (h : d.stage ≠ .finished)
    (hc : d.current b = some (p, g)) (seed : Seed) : drumTick b d seed = some (d.runSegment b p g seed) := by
  simp only [drumTick, if_neg h, hc]

/-- Settles O36: the primed record stands at the same segment, and priming it again changes nothing. -/
theorem finishedSilentAndFirstTickPrimes : Obligations.FinishedSilentAndFirstTickPrimes := by
  refine ⟨fun b d seed h => drumTick_of_finished h b seed, fun b d seed p g h hc => ?_⟩
  have hcurrent : (d.prime g).current b = some (p, g) := by rw [Drum.prime_of_uninitialized h]; exact hc
  have hrunning : (d.prime g).stage = .running := Drum.prime_stage (by simp [h]) g
  rw [← Drum.prime_of_uninitialized h, drumTick_of_current (by simp [h]) hc,
    drumTick_of_current (by simp [hrunning]) hcurrent, Drum.runSegment_prime]

/-! ## A running segment -/

/-- What a running segment's tick answers (R153). -/
theorem drumTick_of_running {b : Build} {d : Drum} {seed : Seed} {p : Program} {g : Segment} {o : DrumOut}
    (h : d.stage = .running) (hc : d.current b = some (p, g)) (ho : drumTick b d seed = some o) :
    o = d.runSegment b p g seed := by
  rw [drumTick_of_current (by simp [h]) hc] at ho
  exact (Option.some.inj ho).symm

/-- A running segment is not primed again (R154). -/
theorem Drum.toned_of_running {d : Drum} (h : d.stage = .running) (b : Build) (g : Segment) :
    d.toned b g = ((d.elapse b).tonePath b g).1 := by
  rw [Drum.toned, Drum.prime_of_running h]

/-- The tone path leaves what is not the tone's own: the position, the noise's fields and the volume (R156). -/
theorem Drum.toned_frame {d : Drum} (h : d.stage = .running) (b : Build) (g : Segment) :
    d.toned b g = { d with
      tonePeriod := (d.toned b g).tonePeriod, toneHalf := (d.toned b g).toneHalf
      toneSweepAcc := (d.toned b g).toneSweepAcc, tonePhase := (d.toned b g).tonePhase
      envElapsed := addMod b d.envElapsed b.drumTimeInc } := by
  rw [Drum.toned_of_running h, Drum.tonePath_frame]; rfl

/-- The record that both paths of a tick with a high tone leave, before step 6. -/
def Drum.pathed (b : Build) (g : Segment) (d : Drum) (seed : Seed) : Drum := ((d.toned b g).noisePath b g seed).1

/-- Both paths leave the position and the volume (R156, R157). -/
theorem Drum.pathed_frame {d : Drum} (h : d.stage = .running) (b : Build) (g : Segment) (seed : Seed) :
    d.SamePosition (d.pathed b g seed) ∧ (d.pathed b g seed).chvol = d.chvol ∧
      (d.pathed b g seed).envElapsed = addMod b d.envElapsed b.drumTimeInc := by
  rw [Drum.pathed, Drum.noisePath_frame, Drum.toned_frame h]
  exact ⟨⟨rfl, rfl, rfl⟩, rfl, rfl⟩

/-- What the tone path and the elapsed counter leave, no later step changes (R157, R158). -/
theorem Drum.runSegment_frame (b : Build) (p : Program) (g : Segment) (d : Drum) (seed : Seed) :
    (d.runSegment b p g seed).drum = { d.toned b g with
      noisePeriod := (d.runSegment b p g seed).drum.noisePeriod
      noiseSweepAcc := (d.runSegment b p g seed).drum.noiseSweepAcc
      noisePhase := (d.runSegment b p g seed).drum.noisePhase, noiseBit := (d.runSegment b p g seed).drum.noiseBit
      seg := (d.runSegment b p g seed).drum.seg, stage := (d.runSegment b p g seed).drum.stage } := by
  cases ht : d.tonedHigh b g with
  | false => rw [Drum.runSegment_low ht]
  | true => rw [Drum.runSegment_high ht, Drum.combine_frame, Drum.noisePath_frame]

/-- The tone's vote can be read off the record that the tick leaves (R156, R158). -/
theorem Drum.toneVote_runSegment_iff (b : Build) (p : Program) (g : Segment) (d : Drum) (seed : Seed) :
    toneVote b g d.tonePhase (d.runSegment b p g seed).drum ↔ d.tonedHigh b g = true := by
  rw [Drum.tonedHigh_iff, Drum.runSegment_frame]; rfl

/-- With a high tone the noise's vote can be read off the record that the tick leaves (R157, R158). -/
theorem Drum.noiseVoteOf_runSegment_iff {b : Build} {g : Segment} {d : Drum} (h : d.tonedHigh b g = true) (p : Program)
    (seed : Seed) : noiseVoteOf g (d.runSegment b p g seed).drum ↔ noiseVote g (d.pathed b g seed) = true := by
  rw [Drum.runSegment_high h, Drum.noiseVoteOf_combine_iff, noiseVote_eq_true_iff, Drum.pathed]

/-- A tone-low tick leaves the tone path's record and nothing else (R156). -/
theorem Drum.runSegment_of_not_toneVote {b : Build} {p : Program} {g : Segment} {d : Drum} {seed : Seed}
    (h : ¬toneVote b g d.tonePhase (d.runSegment b p g seed).drum) :
    d.runSegment b p g seed = { drum := d.toned b g, seed := seed, amp := 0 } :=
  Drum.runSegment_low (Bool.eq_false_iff.2 (mt (d.toneVote_runSegment_iff b p g seed).2 h)) seed

/-- A vote of 0 is silent and does not advance (R156, R158). -/
theorem Drum.runSegment_of_not_voted {b : Build} {p : Program} {g : Segment} {d : Drum} {seed : Seed}
    (h : d.stage = .running)
    (hv : ¬(toneVote b g d.tonePhase (d.runSegment b p g seed).drum ∧ noiseVoteOf g (d.runSegment b p g seed).drum)) :
    (d.runSegment b p g seed).amp = 0 ∧ d.SamePosition (d.runSegment b p g seed).drum := by
  by_cases ht : toneVote b g d.tonePhase (d.runSegment b p g seed).drum
  · have hhigh := (d.toneVote_runSegment_iff b p g seed).1 ht
    have hn : noiseVote g (d.pathed b g seed) ≠ true := fun hn =>
      hv ⟨ht, (Drum.noiseVoteOf_runSegment_iff hhigh p seed).2 hn⟩
    have hcombine : (d.pathed b g seed).combine b p g = (d.pathed b g seed, 0) := if_neg hn
    rw [Drum.runSegment_high hhigh, ← Drum.pathed, hcombine]
    exact ⟨rfl, (Drum.pathed_frame h b g seed).1⟩
  · rw [Drum.runSegment_of_not_toneVote ht, Drum.toned_frame h]
    exact ⟨rfl, rfl, rfl, rfl⟩

/-- A vote of 1 advances the record that the paths leave when it is past the segment's end (R158). -/
theorem Drum.runSegment_drum_of_voted {b : Build} {p : Program} {g : Segment} {d : Drum} {seed : Seed}
    (ht : toneVote b g d.tonePhase (d.runSegment b p g seed).drum) (hn : noiseVoteOf g (d.runSegment b p g seed).drum) :
    (d.runSegment b p g seed).drum =
      if segmentOver g (d.pathed b g seed).envElapsed then (d.pathed b g seed).advanceSegment p
      else d.pathed b g seed := by
  have hhigh := (d.toneVote_runSegment_iff b p g seed).1 ht
  have hvote := (Drum.noiseVoteOf_runSegment_iff hhigh p seed).1 hn
  rw [Drum.runSegment_high hhigh, ← Drum.pathed, Drum.combine, if_pos hvote]

/-- A vote of 1 advances the segment exactly when the elapsed time is past its end (R158, R151). -/
theorem Drum.runSegment_position_of_voted {b : Build} {p : Program} {g : Segment} {d : Drum} {seed : Seed}
    (h : d.stage = .running) (ht : toneVote b g d.tonePhase (d.runSegment b p g seed).drum)
    (hn : noiseVoteOf g (d.runSegment b p g seed).drum) :
    if segmentOver g (addMod b d.envElapsed b.drumTimeInc) then d.AdvancesTo p (d.runSegment b p g seed).drum
    else d.SamePosition (d.runSegment b p g seed).drum := by
  obtain ⟨⟨hprog, hseg, hstage⟩, -, helapsed⟩ := Drum.pathed_frame h b g seed
  rw [Drum.runSegment_drum_of_voted ht hn, helapsed]
  split
  · exact Drum.advancesTo_advanceSegment_of_eq hprog hseg p
  · exact ⟨hprog, hseg, hstage⟩

/-- The amplitude of a vote of 1 by the elapsed time of the tick (R159, R160). -/
theorem Drum.runSegment_amp_of_voted {b : Build} {p : Program} {g : Segment} {d : Drum} {seed : Seed}
    (h : d.stage = .running) (ht : toneVote b g d.tonePhase (d.runSegment b p g seed).drum)
    (hn : noiseVoteOf g (d.runSegment b p g seed).drum) :
    (d.runSegment b p g seed).amp =
      if g.envDuration = 0 then drumAmplitude b (sustainedIndex g)
      else if g.envDuration < addMod b d.envElapsed b.drumTimeInc then 0
      else drumAmplitude b (decayedIndex g (addMod b d.envElapsed b.drumTimeInc) d.chvol) := by
  obtain ⟨-, hchvol, helapsed⟩ := Drum.pathed_frame h b g seed
  rw [Drum.runSegment_amp_of_votes ht hn, ← Drum.pathed, Drum.envelopeAmp, hchvol, helapsed]

theorem segmentOver_of_sustained {g : Segment} (h : g.envDuration = 0) (elapsed : Nat) :
    segmentOver g elapsed = true ↔ g.duration < elapsed := by
  simp [segmentOver, h]

theorem segmentOver_of_decaying {g : Segment} (h : g.envDuration ≠ 0) (elapsed : Nat) :
    segmentOver g elapsed = true ↔ g.envDuration < elapsed := by
  simp [segmentOver, h]

/-- Settles O37: the elapsed counter by the frame of the paths, then the two votes, and on a vote of 1 the two kinds of
segment. -/
theorem segmentSoundsAndAdvances : Obligations.SegmentSoundsAndAdvances := by
  intro b d seed p g o h hc ho
  obtain rfl := drumTick_of_running h hc ho
  dsimp only
  rw [← addMod]
  have hposition := Drum.runSegment_position_of_voted (b := b) (p := p) (g := g) (seed := seed) h
  have hamp := Drum.runSegment_amp_of_voted (b := b) (p := p) (g := g) (seed := seed) h
  refine ⟨?_, ?_, Drum.runSegment_of_not_voted h, fun ⟨ht, hn⟩ he => ?_, fun ⟨ht, hn⟩ he hover => ?_,
    fun ⟨ht, hn⟩ he hover => ?_⟩
  · rw [Drum.runSegment_frame, Drum.toned_frame h]
  · rw [Drum.runSegment_frame, Drum.toned_frame h]
  · have hposition := hposition ht hn
    have hamp := hamp ht hn
    simp only [segmentOver_of_sustained he] at hposition
    rw [if_pos he] at hamp
    refine ⟨fun k hk => ?_, fun hover => ?_, fun hover => ?_⟩
    · obtain rfl : k = sustainedIndex g := Fin.ext hk
      exact hamp
    · rwa [if_pos hover] at hposition
    · rwa [if_neg hover] at hposition
  · have hposition := hposition ht hn
    rw [if_pos ((segmentOver_of_decaying he _).2 hover)] at hposition
    rw [hamp ht hn, if_neg he, if_pos hover]
    exact ⟨rfl, hposition⟩
  · have hposition := hposition ht hn
    rw [if_neg (mt (segmentOver_of_decaying he _).1 hover)] at hposition
    refine ⟨hposition, fun k hk => ?_⟩
    obtain rfl : k = decayedIndex g (addMod b d.envElapsed b.drumTimeInc) d.chvol := Fin.ext hk
    rw [hamp ht hn, if_neg he, if_neg hover]; rfl

/-! ## The tone path -/

theorem Drum.tonePath_of_disabled {g : Segment} (h : g.mixMask[0] = true) (b : Build) (d : Drum) :
    d.tonePath b g = (d, true) := by
  simp [Drum.tonePath, toneEnabled, h]

theorem Drum.tonePath_of_enabled {g : Segment} (h : g.mixMask[0] = false) (b : Build) (d : Drum) :
    d.tonePath b g = (d.toneSweep b g).tonePhaseStep b := by
  simp [Drum.tonePath, toneEnabled, h]

theorem Drum.toneSweep_of_due {b : Build} {g : Segment} {d : Drum}
    (h : b.frameTime ≤ addMod b d.toneSweepAcc b.drumTimeInc ∧ g.toneSweepStep ≠ 0) :
    d.toneSweep b g = { d with
      tonePeriod := addMod b d.tonePeriod g.toneSweepStep, toneHalf := addMod b d.tonePeriod g.toneSweepStep >>> 1
      toneSweepAcc := addMod b d.toneSweepAcc b.drumTimeInc - b.frameTime } :=
  if_pos h

theorem Drum.toneSweep_of_not_due {b : Build} {g : Segment} {d : Drum}
    (h : ¬(b.frameTime ≤ addMod b d.toneSweepAcc b.drumTimeInc ∧ g.toneSweepStep ≠ 0)) :
    d.toneSweep b g = { d with toneSweepAcc := addMod b d.toneSweepAcc b.drumTimeInc } :=
  if_neg h

/-- The phase counter wraps by the period and half-period that the sweep leaves (R156). -/
theorem Drum.tonePhaseStep_tonePhase (b : Build) (d : Drum) :
    (d.tonePhaseStep b).1.tonePhase =
      if addMod b d.tonePhase b.drumPhaseInc < d.toneHalf then addMod b d.tonePhase b.drumPhaseInc
      else if d.tonePeriod < addMod b d.tonePhase b.drumPhaseInc
        then addMod b d.tonePhase b.drumPhaseInc - d.tonePeriod
      else addMod b d.tonePhase b.drumPhaseInc := rfl

/-- The phase step leaves the fields of the sweep (R156). -/
theorem Drum.tonePhaseStep_frame (b : Build) (d : Drum) :
    (d.tonePhaseStep b).1 = { d with tonePhase := (d.tonePhaseStep b).1.tonePhase } := rfl

/-- Settles O38: what the tick leaves of the tone is what the tone path leaves, disabled or enabled and swept or not; a
tone-low tick runs nothing else. -/
theorem tonePathOfRunningSegment : Obligations.TonePathOfRunningSegment := by
  intro b d seed p g o h hc ho
  obtain rfl := drumTick_of_running h hc ho
  dsimp only
  rw [← addMod, ← addMod, ← addMod]
  refine ⟨fun hmask => ?_, fun hmask => ?_, fun hlow => ?_⟩
  · rw [Drum.runSegment_frame, Drum.toned_of_running h, Drum.tonePath_of_disabled hmask]
    exact ⟨rfl, rfl, rfl, rfl⟩
  · rw [Drum.runSegment_frame, Drum.toned_of_running h, Drum.tonePath_of_enabled hmask]
    constructor
    · rw [Drum.tonePhaseStep_frame]
      split
      · next hdue => rw [Drum.toneSweep_of_due (d := d.elapse b) hdue]; exact ⟨rfl, rfl, rfl⟩
      · next hdue => rw [Drum.toneSweep_of_not_due (d := d.elapse b) hdue]; exact ⟨rfl, rfl, rfl⟩
    · have hphase := Drum.tonePhaseStep_tonePhase b ((d.elapse b).toneSweep b g)
      rw [Drum.toneSweep_tonePhase] at hphase
      exact hphase
  · rw [Drum.runSegment_of_not_toneVote hlow, Drum.toned_frame h]
    exact ⟨rfl, ⟨rfl, rfl, rfl⟩, rfl, rfl, rfl, rfl, rfl⟩

/-! ## The noise path -/

/-- The tone path leaves the noise's fields (R156). -/
theorem Drum.toned_noise_fields {d : Drum} (h : d.stage = .running) (b : Build) (g : Segment) :
    (d.toned b g).noisePeriod = d.noisePeriod ∧ (d.toned b g).noiseSweepAcc = d.noiseSweepAcc ∧
      (d.toned b g).noisePhase = d.noisePhase ∧ (d.toned b g).noiseBit = d.noiseBit := by
  rw [Drum.toned_frame h]
  exact ⟨rfl, rfl, rfl, rfl⟩

/-- With a high tone the tick leaves the seed and the noise's fields as the noise path does, and the elapsed counter as
the tone path does (R157, R158). -/
theorem Drum.runSegment_noise_fields {b : Build} {p : Program} {g : Segment} {d : Drum} {seed : Seed}
    (h : toneVote b g d.tonePhase (d.runSegment b p g seed).drum) :
    (d.runSegment b p g seed).seed = ((d.toned b g).noisePath b g seed).2 ∧
      (d.runSegment b p g seed).drum.noisePeriod = (d.pathed b g seed).noisePeriod ∧
      (d.runSegment b p g seed).drum.noiseSweepAcc = (d.pathed b g seed).noiseSweepAcc ∧
      (d.runSegment b p g seed).drum.noisePhase = (d.pathed b g seed).noisePhase ∧
      (d.runSegment b p g seed).drum.noiseBit = (d.pathed b g seed).noiseBit ∧
      (d.runSegment b p g seed).drum.envElapsed = (d.pathed b g seed).envElapsed := by
  rw [Drum.runSegment_high ((d.toneVote_runSegment_iff b p g seed).1 h), Drum.combine_frame]
  exact ⟨rfl, rfl, rfl, rfl, rfl, rfl⟩

theorem Drum.noisePath_of_disabled {g : Segment} (h : g.mixMask[1] = true) (b : Build) (d : Drum) (seed : Seed) :
    d.noisePath b g seed = (d, seed) := by
  simp [Drum.noisePath, noiseEnabled, h]

theorem Drum.noisePath_of_enabled {g : Segment} (h : g.mixMask[1] = false) (b : Build) (d : Drum) (seed : Seed) :
    d.noisePath b g seed = (d.noiseSweep b g).noiseSample b g seed := by
  simp [Drum.noisePath, noiseEnabled, h]

theorem Drum.noiseSweep_of_due {b : Build} {g : Segment} {d : Drum}
    (h : g.noiseSweepPeriod ≠ 0 ∧ g.noiseSweepPeriod < addMod b d.noiseSweepAcc b.drumTimeInc) :
    d.noiseSweep b g = { d with
      noisePeriod := addMod b d.noisePeriod g.noiseSweepStep
      noiseSweepAcc := addMod b d.noiseSweepAcc b.drumTimeInc - g.noiseSweepPeriod } :=
  if_pos h

theorem Drum.noiseSweep_of_not_due {b : Build} {g : Segment} {d : Drum}
    (h : ¬(g.noiseSweepPeriod ≠ 0 ∧ g.noiseSweepPeriod < addMod b d.noiseSweepAcc b.drumTimeInc)) :
    d.noiseSweep b g = { d with noiseSweepAcc := addMod b d.noiseSweepAcc b.drumTimeInc } :=
  if_neg h

theorem Drum.noiseSweep_noiseBit (b : Build) (g : Segment) (d : Drum) : (d.noiseSweep b g).noiseBit = d.noiseBit := by
  unfold Drum.noiseSweep; dsimp only; split <;> rfl

theorem Drum.noiseSample_of_reached {b : Build} {d : Drum} (h : d.noisePeriod ≤ addMod b d.noisePhase b.drumPhaseInc)
    (g : Segment) (seed : Seed) :
    d.noiseSample b g seed =
      ({ d with
          noiseBit := noiseBitOf g d.envElapsed (prngNext seed).2
          noisePhase := addMod b d.noisePhase b.drumPhaseInc - d.noisePeriod }, (prngNext seed).1) :=
  if_pos h

theorem Drum.noiseSample_of_not_reached {b : Build} {d : Drum}
    (h : ¬d.noisePeriod ≤ addMod b d.noisePhase b.drumPhaseInc) (g : Segment) (seed : Seed) :
    d.noiseSample b g seed = ({ d with noisePhase := addMod b d.noisePhase b.drumPhaseInc }, seed) :=
  if_neg h

/-- The sample leaves the fields of the sweep (R157). -/
theorem Drum.noiseSample_frame (b : Build) (g : Segment) (d : Drum) (seed : Seed) :
    (d.noiseSample b g seed).1 = { d with
      noiseBit := (d.noiseSample b g seed).1.noiseBit, noisePhase := (d.noiseSample b g seed).1.noisePhase } := by
  unfold Drum.noiseSample; dsimp only; split <;> rfl

theorem Drum.noiseSample_noisePeriod (b : Build) (g : Segment) (d : Drum) (seed : Seed) :
    (d.noiseSample b g seed).1.noisePeriod = d.noisePeriod := by
  rw [Drum.noiseSample_frame]

theorem noiseBitOf_eq_true_iff (g : Segment) (elapsed : Nat) (r : Byte) :
    noiseBitOf g elapsed r = true ↔ 128 ≤ r.toNat ∧ (g.envDuration = 0 ∨ elapsed ≤ g.envDuration) := by
  simp [noiseBitOf, envelopeGate]

/-- Settles O39: what the tick leaves of the noise is what the noise path leaves, disabled or enabled, swept or not, drawn
or not. -/
theorem noisePathOfRunningSegment : Obligations.NoisePathOfRunningSegment := by
  intro b d seed p g o h hc ho ht
  obtain rfl := drumTick_of_running h hc ho
  obtain ⟨hseed, hperiod, hacc, hphase, hbit, helapsed⟩ := Drum.runSegment_noise_fields ht
  obtain ⟨hperiod₀, hacc₀, hphase₀, hbit₀⟩ := Drum.toned_noise_fields h b g
  dsimp only
  rw [← addMod, ← addMod, ← addMod, hseed, hperiod, hacc, hphase, hbit, helapsed, ← hperiod₀, ← hacc₀, ← hphase₀,
    ← hbit₀, Drum.pathed]
  refine ⟨fun hmask => ?_, fun hmask => ?_⟩
  · rw [Drum.noisePath_of_disabled hmask]
    exact ⟨rfl, rfl, rfl, rfl, rfl⟩
  · rw [Drum.noisePath_of_enabled hmask]
    constructor
    · rw [Drum.noiseSample_frame]
      split
      · next hdue => rw [Drum.noiseSweep_of_due hdue]; exact ⟨rfl, rfl⟩
      · next hdue => rw [Drum.noiseSweep_of_not_due hdue]; exact ⟨rfl, rfl⟩
    · rw [← (d.toned b g).noiseSweep_noisePhase b g, ← (d.toned b g).noiseSweep_noiseBit b g,
        Drum.noiseSample_noisePeriod]
      split
      · next hreached =>
        obtain ⟨hstep, hbyte⟩ := prngNext_toNat seed
        rw [Drum.noiseSample_of_reached hreached, noiseBitOf_eq_true_iff, hbyte]
        exact ⟨hstep, rfl, Iff.rfl⟩
      · next hreached =>
        rw [Drum.noiseSample_of_not_reached hreached]
        exact ⟨rfl, rfl, rfl⟩

end Sys2Proof.Machine
end

section
/-! The receive state machine (43_midi_dispatcher.md R180 to R183): what the step does with a byte, by what the latch
holds. -/

namespace Sys2Proof.Machine

/-! ## The byte event -/

theorem step_byte {s : State} {b : Byte} {rest : List Event} (hp : s.pending = []) (hi : s.inbox = .byte b :: rest) :
    step s = State.runByte { s with inbox := rest } b := by
  simp only [step, State.runNext, hi, State.runEvent, if_pos hp]

theorem State.runByte_of_wait {s : State} {b : Byte} {rx : Rx} (h : s.rx.receive b = .wait rx) :
    s.runByte b = .next { s with rx := rx } := by
  simp only [State.runByte, h]

theorem State.runByte_of_message {s : State} {b : Byte} {bytes : List Byte} (h : s.rx.receive b = .message bytes) :
    s.runByte b = runMessage bytes { s with rx := .idle } := by
  simp only [State.runByte, h]

theorem runMessage_of_decode {bytes : List Byte} {i : Instr} (h : decode bytes = .instr i []) (s : State) :
    runMessage bytes s = exec i s := by
  simp only [runMessage, h]

/-- When the bytes in the latch and the byte are one message, the latch passes them on (R181, R182, R183). -/
theorem Rx.receive_of_decode {rx : Rx} {b : Byte} {i : Instr} (h : decode (rx.bytes ++ [b]) = .instr i []) :
    rx.receive b = .message (rx.bytes ++ [b]) := by
  rcases decode_cases h with ⟨status, d1, d2, -, hb, -⟩ | ⟨status, d1, hl, hb, -⟩ | ⟨status, hl, hb, -⟩
  · cases rx <;> cases hb
    rfl
  · cases rx <;> cases hb
    exact if_pos ((messageLength_eq_two_iff _).1 hl)
  · cases rx <;> cases hb
    exact if_neg (by omega)

/-- Settles O5: the latch passes on the bytes of the message, and they are decoded again to the same message. -/
theorem stepRunsDecodedMessage : Obligations.StepRunsDecodedMessage := by
  intro s b rest i hp hi hd
  rw [step_byte hp hi, State.runByte_of_message (s := { s with inbox := rest }) (Rx.receive_of_decode hd),
    runMessage_of_decode hd]

/-! ## A byte met in `Idle` -/

/-- Settles O16: the arm of each of these messages answers the state it is given. -/
theorem nopAndSkipsChangeNothing : Obligations.NopAndSkipsChangeNothing := by
  intro ch d1 d2 low data s i hi
  simp only [List.mem_cons, List.not_mem_nil, or_false] at hi
  rcases hi with rfl | rfl | rfl | rfl | rfl | rfl <;> rfl

/-- Whatever a byte skipped in `Idle` is read as, it changes nothing (R193, R194). -/
theorem exec_decodeOne (b : Byte) (s : State) : exec (decodeOne b) s = .next s := by
  unfold decodeOne
  split
  · rfl
  · split
    · rfl
    · split
      · rfl
      · split <;> rfl

/-- The routed statuses are those that announce a data byte (R90, R181). -/
theorem one_lt_messageLength_iff (b : Byte) :
    1 < messageLength b ↔ b.toNat / 16 = 0x8 ∨ b.toNat / 16 = 0x9 ∨ b.toNat / 16 = 0xB ∨ b.toNat / 16 = 0xC := by
  rw [messageLength_eq_ite_toNat]
  split
  · omega
  · split <;> omega

/-- Settles O6: a routed status waits in the latch; any other byte is a one-byte item, and skipping it has no effect. -/
theorem byteInIdle : Obligations.ByteInIdle := by
  intro s b rest hp hi hrx
  have hrouted := one_lt_messageLength_iff b
  split
  · next hb =>
    have hwait : s.rx.receive b = .wait (.haveStatus b) := by rw [hrx]; exact if_pos (hrouted.2 hb)
    rw [step_byte hp hi, State.runByte_of_wait (s := { s with inbox := rest }) hwait]
  · next hb =>
    have hone : messageLength b = 1 := by
      have := messageLength_cases b
      have := mt hrouted.1 hb
      omega
    have hd : decode (s.rx.bytes ++ [b]) = .instr (decodeOne b) [] := by rw [hrx]; exact decode_one hone []
    rw [stepRunsDecodedMessage s b rest _ hp hi hd, exec_decodeOne, ← hrx]

/-! ## The data bytes -/

/-- Settles O7: with nibble 0xC the two bytes are a message; with any other the latch waits for a second data byte. -/
theorem byteAfterStatus : Obligations.ByteAfterStatus := by
  intro s b status rest hp hi hrx
  have hop : status.toNat / 16 = 0xC ↔ statusOp status = 0xC := (statusOp_eq_iff status 0xC).symm
  split
  · next hC =>
    have hd : decode (s.rx.bytes ++ [b]) = .instr (.pc (statusChannel status) b) [] := by
      rw [hrx]; exact decode_two ((messageLength_eq_two_iff status).2 (hop.1 hC)) b []
    exact stepRunsDecodedMessage s b rest _ hp hi hd
  · next hC =>
    have hwait : s.rx.receive b = .wait (.haveData1 status b) := by rw [hrx]; exact if_neg (mt hop.2 hC)
    rw [step_byte hp hi, State.runByte_of_wait (s := { s with inbox := rest }) hwait]

/-- The byte after the first data byte completes a three-byte message, whatever its value (R183). -/
theorem step_of_haveData1 {s : State} {b status d1 : Byte} {rest : List Event} (hp : s.pending = [])
    (hi : s.inbox = .byte b :: rest) (hrx : s.rx = .haveData1 status d1)
    (hop : statusOp status = 0x8 ∨ statusOp status = 0x9 ∨ statusOp status = 0xB) :
    step s = exec (decodeThree status d1 b) { s with inbox := rest, rx := .idle } := by
  have hd : decode (s.rx.bytes ++ [b]) = .instr (decodeThree status d1 b) [] := by
    rw [hrx]; exact decode_three ((messageLength_eq_three_iff status).2 hop) d1 b []
  exact stepRunsDecodedMessage s b rest _ hp hi hd

theorem isVolumeController_iff (c : Byte) : isVolumeController c = true ↔ c ∈ ([7, 11] : List Byte) :=
  List.contains_iff_mem

theorem isResetController_iff (c : Byte) :
    isResetController c = true ↔ c ∈ ([0, 120, 121, 123, 124, 125, 126, 127] : List Byte) :=
  List.contains_iff_mem

/-- The controllers of neither list (R97). -/
theorem not_controller_of_not_mem {c : Byte} (h : c ∉ ([0, 7, 11, 120, 121, 123, 124, 125, 126, 127] : List Byte)) :
    ¬ isVolumeController c = true ∧ ¬ isResetController c = true := by
  rw [isVolumeController_iff, isResetController_iff]
  exact ⟨mt (List.Sublist.mem · (by decide)) h, mt (List.Sublist.mem · (by decide)) h⟩

/-- Settles O8: by the status nibble, and then the tests of the decoder on channel, velocity and controller. -/
theorem byteAfterFirstData : Obligations.ByteAfterFirstData := by
  intro s b status d1 rest hp hi hrx
  obtain ⟨op, ch, rfl⟩ : ∃ op ch, status = statusByte op ch := ⟨_, _, (statusByte_eta status).symm⟩
  have hch : (statusByte op ch).extractLsb' 0 4 = ch := statusChannel_statusByte op ch
  have hstep := step_of_haveData1 hp hi hrx
  simp only [← statusOp_toNat, statusOp_statusByte, hch] at hstep ⊢
  have hnibble (n : BitVec 4) (h : op.toNat = n.toNat) : op = n := BitVec.eq_of_toNat_eq h
  refine ⟨fun h8 => ?_, fun h9 hdrum => ?_, fun h9 hdrum hv => ?_, fun h9 hdrum hv => ?_, fun hB hvol => ?_,
    fun hB hreset => ?_, fun hB hother => ?_⟩
  · obtain rfl := hnibble 0x8 h8
    rw [hstep (by decide), decodeThree_noteOff]
  · obtain rfl := hnibble 0x9 h9
    rw [hstep (by decide), decodeThree_noteOn, if_pos hdrum]
  · obtain rfl := hnibble 0x9 h9
    rw [hstep (by decide), decodeThree_noteOn, if_neg hdrum, if_pos hv]
  · obtain rfl := hnibble 0x9 h9
    rw [hstep (by decide), decodeThree_noteOn, if_neg hdrum, if_neg hv]
  · obtain rfl := hnibble 0xB hB
    rw [hstep (by decide), decodeThree_control, if_pos ((isVolumeController_iff d1).2 hvol)]
  · obtain rfl := hnibble 0xB hB
    have hreset := (isResetController_iff d1).2 hreset
    have hvol : ¬ isVolumeController d1 = true := fun h => by simp [isVolumeController_not_reset d1 h] at hreset
    rw [hstep (by decide), decodeThree_control, if_neg hvol, if_pos hreset]
  · obtain rfl := hnibble 0xB hB
    obtain ⟨hvol, hreset⟩ := not_controller_of_not_mem hother
    rw [hstep (by decide), decodeThree_control, if_neg hvol, if_neg hreset]

end Sys2Proof.Machine
end

section
/-! The messages (43_midi_dispatcher.md R185 to R195): Note On, the drum notes, the volume controllers, and what is
refused. -/

namespace Sys2Proof.Machine

open Config

/-! ## Note On -/

/-- No voice holds the pair (R130). -/
theorem State.find_eq_false_iff_unbound (s : State) (ch : Channel) (note : Byte) :
    s.find ch note = false ↔
      ∀ k : VoiceIx, ¬(s.pool[k].bound = true ∧ s.pool[k].ch = ch ∧ s.pool[k].note = note) := by
  rw [← Bool.not_eq_true, State.find_iff, not_exists]

theorem exec_noteOn_of_bound {s : State} {ch : Channel} {note : Byte} (h : s.find ch note = true) (velocity : Byte) :
    exec (.noteOn ch note velocity) s = .next s :=
  if_pos h

theorem exec_noteOn_of_unbound {s : State} {ch : Channel} {note : Byte} (h : s.find ch note = false) (velocity : Byte) :
    exec (.noteOn ch note velocity) s =
      if 127 < note.toNat then .refused .noteAbove127 else .next (s.allocate ch (note.setWidth 7)).1 :=
  if_neg (Bool.eq_false_iff.1 h)

/-- An unbound pair takes the slot that the scan finds (R131, R186). -/
theorem exec_noteOn_of_free {s : State} {ch : Channel} {note : Byte} {k : VoiceIx} (h : s.find ch note = false)
    (hn : note.toNat ≤ 127) (hk : s.firstFree = some k) (velocity : Byte) :
    exec (.noteOn ch note velocity) s = .next (s.setVoice k (Voice.allocated s.build ch (note.setWidth 7))) := by
  rw [exec_noteOn_of_unbound h, if_neg (Nat.not_lt.2 hn), State.allocate_of_free hk]

/-- A 7-bit note is kept by the slot that takes it (R131). -/
theorem Voice.allocated_note {note : Byte} (h : note.toNat ≤ 127) (b : Build) (ch : Channel) :
    (Voice.allocated b ch (note.setWidth 7)).note = note := by
  refine BitVec.eq_of_toNat_eq ?_
  simp only [Voice.allocated, BitVec.toNat_setWidth]
  omega

theorem Voice.allocated_half {note : Byte} {n : Fin 128} (h : note.toNat = n) (b : Build) (ch : Channel) :
    (Voice.allocated b ch (note.setWidth 7)).half = b.noteHalf[n] := by
  have hn : (note.setWidth 7).toNat = n := by
    rw [BitVec.toNat_setWidth, h]
    exact Nat.mod_eq_of_lt n.isLt
  simp only [Voice.allocated, noteHalf, hn, Fin.getElem_fin]

theorem State.setVoice_pool_same (s : State) (k : VoiceIx) (v : Voice) : (s.setVoice k v).pool[k] = v := by
  rw [State.setVoice_pool_getElem, if_pos rfl]

theorem State.setVoice_pool_of_ne {j k : VoiceIx} (h : j ≠ k) (s : State) (v : Voice) :
    (s.setVoice k v).pool[j] = s.pool[j] := by
  rw [State.setVoice_pool_getElem, if_neg h.symm]

/-- Settles O13: a bound pair, a note above 127, a full pool, and the slot that the scan stops at. -/
theorem noteOnTakesLowestFreeSlot : Obligations.NoteOnTakesLowestFreeSlot := by
  intro ch note velocity s
  refine ⟨fun hbound => exec_noteOn_of_bound ((s.find_iff ch note).2 hbound) velocity, fun hunbound => ?_⟩
  have hfind := (s.find_eq_false_iff_unbound ch note).2 hunbound
  refine ⟨fun hn => ?_, fun hn hfull => ?_, fun n k hn hfree hbelow => ?_⟩
  · rw [exec_noteOn_of_unbound hfind, if_pos hn]
  · rw [exec_noteOn_of_unbound hfind, if_neg (Nat.not_lt.2 hn),
      State.allocate_of_full ((s.firstFree_eq_none_iff).2 hfull)]
  · have hle : note.toNat ≤ 127 := by omega
    have hhalf := Voice.allocated_half hn s.build ch
    refine ⟨_, exec_noteOn_of_free hfind hle ((s.firstFree_eq_some_iff k).2 ⟨hfree, hbelow⟩) velocity, rfl,
      fun j hj => State.setVoice_pool_of_ne hj s _, ?_⟩
    rw [State.setVoice_pool_same]
    exact ⟨rfl, rfl, rfl, Voice.allocated_note hle _ _, rfl, hhalf, congrArg (2 * ·) hhalf⟩

/-! ## Note On twice, then Note Off -/

/-- The only commit of a message is made in the message's transition, at either granularity (R76). -/
theorem State.issue_singleton {s : State} (h : s.pending = []) (c : Commit) : s.issue [c] = s.applyCommit c := by
  have hs : { s with pending := [] } = s := by rw [← h]
  cases hg : s.build.granularity with
  | message => rw [State.issue_message hg, State.drain, h, List.nil_append, List.foldl_cons, List.foldl_nil, hs]
  | record => rw [State.issue_record_cons hg h, hs]

theorem State.slots_eq_singleton {s : State} {p : Voice → Bool} {k : VoiceIx}
    (h : ∀ j : VoiceIx, p s.pool[j] = true ↔ j = k) : s.slots p = [k] := by
  have hbelow (j : VoiceIx) (hj : j < k) : p s.pool[j] = false := Bool.eq_false_iff.2 (mt (h j).1 hj.ne)
  rw [State.slots_eq_cons ((h k).2 rfl) hbelow, List.filter_eq_nil_iff.2]
  intro j _ hj
  rw [Bool.and_eq_true, decide_eq_true_eq, h] at hj
  exact hj.1.ne' hj.2

/-- A pair that one slot alone holds is released by freeing that slot (R132, R185). -/
theorem exec_noteOff_of_holds_iff {s : State} {ch : Channel} {note : Byte} {k : VoiceIx} (hp : s.pending = [])
    (h : ∀ j : VoiceIx, s.pool[j].holds ch note = true ↔ j = k) (velocity : Byte) :
    exec (.noteOff ch note velocity) s = .next (s.freeVoice k) := by
  rw [exec_releases (.inl rfl), State.release, State.slots_eq_singleton h, List.map_singleton, State.issue_singleton hp]
  rfl

/-- After an unbound pair took a slot, that slot alone holds it (R22, R131). -/
theorem State.setVoice_holds_iff {s : State} {ch : Channel} {note : Byte} (hfind : s.find ch note = false) {v : Voice}
    (hv : v.holds ch note = true) (k j : VoiceIx) : (s.setVoice k v).pool[j].holds ch note = true ↔ j = k := by
  by_cases hj : j = k
  · rw [hj, State.setVoice_pool_same]
    exact iff_of_true hv rfl
  · rw [State.setVoice_pool_of_ne hj, (s.find_eq_false_iff ch note).1 hfind j]
    exact iff_of_false Bool.false_ne_true hj

theorem State.find_of_holds {s : State} {ch : Channel} {note : Byte} {k : VoiceIx}
    (h : s.pool[k].holds ch note = true) : s.find ch note = true :=
  (s.find_iff ch note).2 ⟨k, (Voice.holds_iff _ ch note).1 h⟩

theorem State.exists_firstFree {s : State} (h : ∃ k : VoiceIx, s.pool[k].bound = false) : ∃ k, s.firstFree = some k := by
  obtain ⟨k, hk⟩ := h
  refine Option.ne_none_iff_exists'.1 fun hnone => ?_
  rw [s.firstFree_eq_none_iff.1 hnone k] at hk
  cases hk

/-- Settles O19: the slot that the first Note On takes alone holds the pair, so the second finds it and the Note Off frees
it in its one commit. -/
theorem duplicateNoteOnThenNoteOff : Obligations.DuplicateNoteOnThenNoteOff := by
  intro s ch note velocity hp hn hunbound hfree
  have hfind := (s.find_eq_false_iff_unbound ch note).2 hunbound
  obtain ⟨k, hk⟩ := State.exists_firstFree hfree
  obtain ⟨hkfree, -⟩ := (s.firstFree_eq_some_iff k).1 hk
  have hheld : (Voice.allocated s.build ch (note.setWidth 7)).holds ch note = true :=
    (Voice.holds_iff _ ch note).2 ⟨rfl, rfl, Voice.allocated_note hn _ _⟩
  have hholds := State.setVoice_holds_iff hfind hheld k
  refine ⟨_, _, exec_noteOn_of_free hfind hn hk velocity,
    exec_noteOn_of_bound (State.find_of_holds ((hholds k).2 rfl)) velocity,
    exec_noteOff_of_holds_iff (s := s.setVoice k _) hp hholds velocity, hp, k, hkfree, ?_, ?_, fun j hj => ?_⟩
  · rw [State.setVoice_pool_same]; rfl
  · rw [State.freeVoice_pool_getElem, if_pos rfl]; rfl
  · rw [State.freeVoice_pool_getElem, if_neg hj.symm, State.setVoice_pool_of_ne hj]

/-! ## Drum notes -/

theorem exec_noteOnDrum_of_none {s : State} {note : Byte} (h : drumProgram s.build note = none) (velocity : Byte) :
    exec (.noteOnDrum note velocity) s = .next s := by
  simp only [exec, execNoteOnDrum, h]

theorem exec_noteOnDrum_of_some {s : State} {note : Byte} {id : ProgramId} (h : drumProgram s.build note = some id)
    (velocity : Byte) : exec (.noteOnDrum note velocity) s = .next (s.trigger id) := by
  simp only [exec, execNoteOnDrum, h]

theorem drumProgram_of_outside {note : Byte} (h : note.toNat < 35 ∨ 57 < note.toNat) (b : Build) :
    drumProgram b note = none :=
  dif_neg (by simp only [drumNoteLo, drumNoteHi]; omega)

/-- In range a drum note selects the program that its map entry names, if that is one (R65, R188). -/
theorem drumProgram_eq_some_iff {note : Byte} {k : Fin 23} (h : note.toNat = k + 35) (b : Build) (id : ProgramId) :
    drumProgram b note = some id ↔ b.drumNoteMap[k] = some (id : Nat) := by
  have hk : note.toNat - drumNoteLo = k := by simp only [drumNoteLo]; omega
  have hrange : drumNoteLo ≤ note.toNat ∧ note.toNat ≤ drumNoteHi := by simp only [drumNoteLo, drumNoteHi]; omega
  rw [drumProgram, dif_pos hrange]
  simp only [hk, Fin.getElem_fin]
  cases b.drumNoteMap[(k : Nat)] with
  | none => simp
  | some e =>
    by_cases he : e < 11
    · simp [he, Fin.ext_iff]
    · have hne : e ≠ id := by omega
      simp [he, hne]

/-- Settles O14: what a drum note selects, outside the range, mapped to a program, and mapped to none. -/
theorem drumNoteTriggers : Obligations.DrumNoteTriggers := by
  intro note velocity s
  refine ⟨fun hout => exec_noteOnDrum_of_none (drumProgram_of_outside hout _) velocity, fun k hk => ⟨fun id hid => ?_,
    fun hnone => ?_⟩⟩
  · exact exec_noteOnDrum_of_some ((drumProgram_eq_some_iff hk _ id).2 hid) velocity
  · refine exec_noteOnDrum_of_none (Option.eq_none_iff_forall_ne_some.2 fun id hid => ?_) velocity
    exact hnone id ((drumProgram_eq_some_iff hk _ id).1 hid)

/-! ## The volume controllers -/

theorem exec_ccVolume_of_lt {value : Byte} (h : 127 < value.toNat) (ch : Channel) (controller : Byte) (s : State) :
    exec (.ccVolume ch controller value) s = .refused .volumeAbove127 :=
  if_pos h

/-- Settles O15: a refusal above 127; else the volume write, read in the state where its commits are made. -/
theorem volumeControllerWrites : Obligations.VolumeControllerWrites := by
  intro ch controller value s
  refine ⟨fun hv => exec_ccVolume_of_lt hv ch controller s, fun hv hp => ?_⟩
  have hvolume := volumeOf_toNat hv
  refine ⟨_, exec_ccVolume_of_le hv ch controller s, s.issue_whole _, ?_⟩
  rw [State.writeVolume_drain hp]
  refine ⟨rfl, fun c => ?_, ?_⟩
  · have hcv := s.setChannelVolume_cv_getElem ch (volumeOf value) c
    rw [State.setChannelVolume_cv] at hcv
    rw [hcv]
    split
    · exact hvolume
    · rfl
  · split
    · exact hvolume
    · rfl

/-! ## What is refused -/

theorem exec_noteOn_eq_refused_iff (ch : Channel) (note velocity : Byte) (s : State) (r : Refusal) :
    exec (.noteOn ch note velocity) s = .refused r ↔
      s.find ch note = false ∧ 127 < note.toNat ∧ r = .noteAbove127 := by
  cases hf : s.find ch note with
  | true => simp [exec_noteOn_of_bound hf]
  | false =>
    rw [exec_noteOn_of_unbound hf]
    split
    · next hn => simp [hn, eq_comm]
    · next hn => simp [hn]

theorem exec_ccVolume_eq_refused_iff (ch : Channel) (controller value : Byte) (s : State) (r : Refusal) :
    exec (.ccVolume ch controller value) s = .refused r ↔ 127 < value.toNat ∧ r = .volumeAbove127 := by
  by_cases hv : 127 < value.toNat
  · simp [exec_ccVolume_of_lt hv, hv, eq_comm]
  · simp [exec_ccVolume_of_le (Nat.not_lt.1 hv), hv]

/-- No message faults (R195). -/
theorem exec_ne_fault (i : Instr) (s : State) (f : Fault) : exec i s ≠ .fault f := by
  intro h
  cases i with
  | noteOn ch note velocity =>
    cases hf : s.find ch note with
    | true => rw [exec_noteOn_of_bound hf] at h; cases h
    | false =>
      rw [exec_noteOn_of_unbound hf] at h
      split at h <;> cases h
  | ccVolume ch controller value =>
    by_cases hv : 127 < value.toNat
    · rw [exec_ccVolume_of_lt hv] at h; cases h
    · rw [exec_ccVolume_of_le (Nat.not_lt.1 hv)] at h; cases h
  | _ => cases h

/-- Settles O17: Note On and the volume controllers are refused as their arms say, and every other message answers a next
state. -/
theorem onlyTwoInputsRefused : Obligations.OnlyTwoInputsRefused := by
  refine fun i s => ⟨exec_ne_fault i s, fun r => ⟨fun h => ?_, ?_⟩⟩
  · cases i with
    | noteOn ch note velocity =>
      obtain ⟨hf, hn, hr⟩ := (exec_noteOn_eq_refused_iff ch note velocity s r).1 h
      exact .inl ⟨ch, note, velocity, rfl, hn, hr, (s.find_eq_false_iff_unbound ch note).1 hf⟩
    | ccVolume ch controller value =>
      obtain ⟨hv, hr⟩ := (exec_ccVolume_eq_refused_iff ch controller value s r).1 h
      exact .inr ⟨ch, controller, value, rfl, hv, hr⟩
    | _ => cases h
  · rintro (⟨ch, note, velocity, rfl, hn, hr, hunbound⟩ | ⟨ch, controller, value, rfl, hv, hr⟩)
    · have hf := (s.find_eq_false_iff_unbound ch note).2 hunbound
      exact (exec_noteOn_eq_refused_iff ch note velocity s r).2 ⟨hf, hn, hr⟩
    · exact (exec_ccVolume_eq_refused_iff ch controller value s r).2 ⟨hv, hr⟩

end Sys2Proof.Machine
end

section
/-! The sample mixer (44_mixer.md R220 to R223): what a tick leaves in every register, the level of a sum, and when
`OUT_LEVEL` moves. -/

namespace Sys2Proof.Machine

open Config

/-! ## The level -/

theorem State.voiceTotal_eq_sum (s : State) : s.voiceTotal = ∑ k : VoiceIx, s.contribution k :=
  (Fin.sum_univ_def s.contribution).symm

/-- Twenty voices at a curve entry of at most 255 each (R222). -/
theorem State.voiceTotal_le (s : State) : s.voiceTotal ≤ 20 * 255 := by
  rw [State.voiceTotal_eq_sum]
  exact Finset.sum_le_card_nsmul _ _ 255 fun k _ => s.contribution_le k

/-- Settles O33: twenty voices and the drum amplitude are at most 255 each. -/
theorem mixerClampsNeverWraps : Obligations.MixerClampsNeverWraps := by
  refine ⟨fun total => ?_, fun s o _ => ?_⟩
  · rw [mixLevel_toNat, min_def]
  · have hvoices := s.voiceTotal_le
    have hdrum := o.amp.isLt
    omega

/-! ## The tick -/

/-- A voice's contribution in the advanced phase: its curve entry when bound, enabled and high (R134, R221). -/
theorem State.contribution_eq_of_advanced (s : State) (k : VoiceIx) :
    s.contribution k =
      if s.pool[k].bound = true ∧ s.pool[k].en = true ∧
          (s.pool[k].advanced s.build < s.pool[k].half ∨ s.pool[k].full < s.pool[k].advanced s.build) then
        voiceAmplitude s.build s.cv[s.pool[k].ch.toFin]
      else 0 := by
  rw [State.contribution_eq]
  exact if_congr (by rw [Voice.tick_high_iff, and_self_left]) rfl rfl

/-- What a tick writes (R220). -/
theorem State.ticked_frame (s : State) (o : DrumOut) :
    s.ticked o = { s with pool := (s.ticked o).pool, drum := (s.ticked o).drum, seed := (s.ticked o).seed,
                          outLevel := (s.ticked o).outLevel } := rfl

theorem step_tick_of_drumTick {s : State} {rest : List Event} {o : DrumOut} (hi : s.inbox = .tick :: rest)
    (ho : drumTick s.build s.drum s.seed = some o) : step s = .next (State.ticked { s with inbox := rest } o) := by
  rw [step_tick hi]
  exact State.tick_eq_next_iff.2 ⟨o, ho, rfl⟩

/-- Settles O31: the step answers the ticked state, whose level is that of the voices' contributions and the drum
amplitude. -/
theorem tickMixesVoicesAndDrum : Obligations.TickMixesVoicesAndDrum := by
  intro s rest o hi ho
  refine ⟨_, step_tick_of_drumTick hi ho, State.ticked_drum _ o, State.ticked_seed _ o, fun k => ?_,
    State.ticked_frame _ o, ?_⟩
  · rw [State.ticked_pool, tickPool_getElem]
  · rw [State.ticked_outLevel, mixLevel_toNat, State.voiceTotal_eq_sum]
    simp only [State.contribution_eq_of_advanced]
    rfl

/-! ## When `OUT_LEVEL` moves -/

/-- Settles O32: of all a step can do, only the tick and the reset write `OUT_LEVEL`, and the reset leaves it 0. -/
theorem outLevelMovesOnlyOnTick : Obligations.OutLevelMovesOnlyOnTick := by
  intro s t h hne
  rcases step_cases h with ⟨-, rfl⟩ | ⟨rest, hi, rfl⟩ | ⟨_, _, -, rfl⟩ | ⟨_, -, rfl⟩ | ⟨rest, _, hi, -, rfl⟩ |
    ⟨_, _, _, -, -, -, rfl⟩ | ⟨_, _, _, -, -, -, hx⟩
  · exact absurd (State.commitNext_outLevel s) hne
  · exact ⟨rest, .inr ⟨hi, State.powerUp_outLevel _⟩⟩
  · exact absurd (State.seedLoad_outLevel _ _) hne
  · exact absurd (State.commitNext_outLevel _) hne
  · exact ⟨rest, .inl hi⟩
  · exact absurd rfl hne
  · exact absurd (exec_byteWrites hx).outLevel hne

end Sys2Proof.Machine
end

section
/-! Exceptions (60_exceptions.md R230): in a state that meets the invariants every message is decoded whole and every tick
answers. -/

namespace Sys2Proof.Machine

/-- What a legal latch passes on is one message and nothing after it (R29, R181 to R183). -/
theorem Rx.decode_of_receive_message {rx : Rx} {b : Byte} {bytes : List Byte} (hrx : rx.Legal)
    (h : rx.receive b = .message bytes) : ∃ i, decode bytes = .instr i [] := by
  cases rx with
  | idle =>
    simp only [Rx.receive] at h
    split at h
    · cases h
    · next hb =>
      cases h
      have hone : messageLength b = 1 := by
        have := messageLength_cases b
        omega
      exact ⟨_, decode_one hone []⟩
  | haveStatus status =>
    simp only [Rx.receive] at h
    split at h
    · next hC =>
      cases h
      exact ⟨_, decode_two ((messageLength_eq_two_iff status).2 hC) b []⟩
    · cases h
  | haveData1 status d1 =>
    cases h
    exact ⟨_, decode_three ((messageLength_eq_three_iff status).2 hrx) d1 b []⟩

theorem State.runByte_ne_fault {s : State} (hrx : s.rx.Legal) (b : Byte) (f : Fault) : s.runByte b ≠ .fault f := by
  cases h : s.rx.receive b with
  | wait rx => rw [State.runByte_of_wait h]; exact nofun
  | message bytes =>
    obtain ⟨i, hd⟩ := Rx.decode_of_receive_message hrx h
    rw [State.runByte_of_message h, runMessage_of_decode hd]
    exact exec_ne_fault i _ f

theorem State.tick_ne_fault {s : State} (hdrum : s.drum.Ok s.build) (f : Fault) : s.tick ≠ .fault f := by
  obtain ⟨o, ho⟩ := drumTick_isSome hdrum s.seed
  rw [State.tick_eq_next_iff.2 ⟨o, ho, rfl⟩]
  exact nofun

/-- The step of a state whose next event is a reset. -/
theorem step_reset {s : State} {rest : List Event} (h : s.inbox = .reset :: rest) :
    step s = .next (State.powerUp { s with inbox := rest }) := by
  simp only [step, State.runNext, h, State.runEvent]

/-- Settles O48, by the event at the head of the inbox: a byte meets a legal latch, a tick a NoiseDrum in range, and no
other event can fault. -/
theorem invariantStepNeverFaults : Obligations.InvariantStepNeverFaults := by
  intro s f hs
  cases hi : s.inbox with
  | nil => rw [step_of_inbox_nil hi]; exact nofun
  | cons e rest =>
    cases e with
    | byte b =>
      by_cases hp : s.pending = []
      · rw [step_byte hp hi]
        exact State.runByte_ne_fault (s := { s with inbox := rest }) hs.latch b f
      · rw [step_byte_of_pending hi hp]; exact nofun
    | tick =>
      rw [step_tick hi]
      exact State.tick_ne_fault (s := { s with inbox := rest }) hs.drum f
    | commit => rw [step_of_commit (.inr ⟨rest, hi⟩)]; exact nofun
    | reset => rw [step_reset hi]; exact nofun
    | seedLoad v => rw [seedLoadSetsSeedOnly s v rest hi]; exact nofun

end Sys2Proof.Machine
end

section
/-! Reset (70_reset_and_hazards.md R260): the registers after power-up, slot by slot of the two arrays. -/

namespace Sys2Proof.Machine

/-- Every voice of the pool is the reset voice (R24, R40). -/
@[simp] theorem State.powerUp_voice (s : State) (k : VoiceIx) : s.powerUp.pool[k] = Voice.reset s.build := by
  rw [State.powerUp_pool, Fin.getElem_fin, Vector.getElem_replicate]

/-- Every channel volume is the build's reset volume (R40). -/
@[simp] theorem State.powerUp_channelVolume (s : State) (c : Fin 16) : s.powerUp.cv[c] = s.build.chvolReset := by
  rw [State.powerUp_cv, Fin.getElem_fin, Vector.getElem_replicate]

/-- Settles O44: the step powers the machine up, and power-up is R40's table on the voices, the channel volumes, the
NoiseDrum and the rest, on the build it found. -/
theorem resetSetsEveryRegister : Obligations.ResetSetsEveryRegister := by
  intro s rest hi
  refine ⟨State.powerUp { s with inbox := rest }, step_reset hi, State.powerUp_build _, fun k => ?voice,
    fun c => State.powerUp_channelVolume _ c, ?drumAndRest⟩
  case voice => simp [Voice.reset]
  case drumAndRest => simp [Drum.reset]

end Sys2Proof.Machine
end

section
/-! The invariants (10_state.md R22, R29, R34, R35, R39; 43_midi_dispatcher.md R197): part by part, what each operation on
the registers keeps, and from that what every step keeps. -/

namespace Sys2Proof.Machine

open Config

/-! ## The voice pool -/

/-- The part of `State.Inv` that speaks of the voice pool. -/
structure PoolInv (b : Build) (pool : Vector Voice 20) : Prop where
  voices : ∀ i : VoiceIx, pool[i].Ok b
  oneVoice : OneVoicePerPair pool
  widths : b.Fits → ∀ i : VoiceIx, pool[i].Fits b.cw

/-- A free voice meets R22 once it is disabled: the other clauses speak of bound voices. -/
theorem Voice.Ok.of_free {b : Build} {v : Voice} (hbound : v.bound = false) (hen : v.en = false) : v.Ok b := by
  constructor <;> simp [hbound, hen]

/-- A released voice is free and disabled (R24, R132). -/
theorem Voice.ReleasedTo.ok {b : Build} {v w : Voice} (h : v.ReleasedTo b w) : w.Ok b := by
  obtain ⟨hbound, hen, -⟩ := h
  exact .of_free hbound hen

theorem Voice.ReleasedTo.eq_freed {b : Build} {v w : Voice} (h : v.ReleasedTo b w) : w = v.freed b := by
  obtain ⟨half, full, phase, en, bound, ch, note⟩ := w
  obtain ⟨rfl, rfl, rfl, rfl, rfl, rfl, rfl⟩ := h
  rfl

/-- What leaves every voice or releases it keeps the pool's invariants (R132). -/
theorem PoolInv.of_kept_or_releasedTo {b : Build} {pool pool' : Vector Voice 20} (h : PoolInv b pool)
    (hkept : ∀ k : VoiceIx, pool'[k] = pool[k] ∨ pool[k].ReleasedTo b pool'[k]) : PoolInv b pool' where
  voices k := by
    rcases hkept k with heq | hrel
    · exact heq ▸ h.voices k
    · exact hrel.ok
  oneVoice i j hi hj hch hnote := by
    have hkeptBound (k : VoiceIx) (hk : pool'[k].bound = true) : pool'[k] = pool[k] :=
      (hkept k).resolve_right fun ⟨hfree, _⟩ => by rw [hk] at hfree; cases hfree
    have hieq := hkeptBound i hi
    have hjeq := hkeptBound j hj
    rw [hieq] at hi hch hnote
    rw [hjeq] at hj hch hnote
    exact h.oneVoice i j hi hj hch hnote
  widths hb k := by
    rcases hkept k with heq | hrel
    · exact heq ▸ h.widths hb k
    · exact hrel.eq_freed ▸ Voice.freed_fits (h.widths hb k)

/-- Any number of commits free a voice or leave it (R76, R132). -/
theorem State.foldl_applyCommit_voice (cs : List Commit) (s : State) (k : VoiceIx) :
    (cs.foldl State.applyCommit s).pool[k] = s.pool[k] ∨
      s.pool[k].ReleasedTo s.build (cs.foldl State.applyCommit s).pool[k] := by
  induction cs generalizing s with
  | nil => exact .inl rfl
  | cons c cs ih =>
    have hbuild : (s.applyCommit c).build = s.build := by rw [State.applyCommit_frame]
    have htail := ih (s.applyCommit c)
    rw [hbuild] at htail
    rw [List.foldl_cons]
    rcases s.applyCommit_voice c k with heq | hrel
    · rwa [heq] at htail
    · rw [hrel.eq_freed] at htail
      rcases htail with heq | hrel'
      · exact .inr (heq ▸ s.pool[k].releasedTo_freed s.build)
      · exact .inr (hrel'.eq_freed ▸ s.pool[k].releasedTo_freed s.build)

/-- The commits of a message free a voice or leave it, at either granularity (R76, R132). -/
theorem State.issue_voice (s : State) (cs : List Commit) (k : VoiceIx) :
    (s.issue cs).pool[k] = s.pool[k] ∨ s.pool[k].ReleasedTo s.build (s.issue cs).pool[k] := by
  unfold State.issue
  split
  · exact State.foldl_applyCommit_voice _ _ k
  · exact State.commitNext_voice _ k

/-- One subtraction brings the phase back to the full period when the increment is no more than it (R22, R134). -/
theorem Voice.tick_phase_le {b : Build} {v : Voice} (hhalf : v.full = 2 * v.half) (hinc : b.voiceTickInc ≤ v.full)
    (hphase : v.phase ≤ v.full) : (v.tick b).1.phase ≤ v.full := by
  have hadv : v.advanced b ≤ v.phase + b.voiceTickInc := Nat.mod_le _ _
  cases hbound : v.bound with
  | false => rw [Voice.tick_free hbound]; exact hphase
  | true =>
    by_cases hlow : v.advanced b < v.half
    · rw [Voice.tick_below hbound hlow]; dsimp only; omega
    · by_cases hpast : v.full < v.advanced b
      · rw [Voice.tick_past hbound hlow hpast]; dsimp only; omega
      · rw [Voice.tick_between hbound hlow hpast]; dsimp only; omega

/-- A tick keeps R22 of a voice: it writes the phase alone. -/
theorem Voice.Ok.tick {b : Build} {v : Voice} (h : v.Ok b) : (v.tick b).1.Ok b := by
  have hphase (hbound : v.bound = true) (hinc : b.voiceTickInc ≤ v.full) : (v.tick b).1.phase ≤ v.full :=
    Voice.tick_phase_le (h.full hbound) hinc (h.phase hbound hinc)
  rw [Voice.tick_frame]
  exact { h with phase := hphase }

theorem PoolInv.tick {b : Build} {pool : Vector Voice 20} (h : PoolInv b pool) : PoolInv b (tickPool pool b) where
  voices k := by rw [tickPool_getElem]; exact (h.voices k).tick
  oneVoice i j := by
    rw [tickPool_getElem, tickPool_getElem, Voice.tick_frame pool[i], Voice.tick_frame pool[j]]
    exact h.oneVoice i j
  widths hb k := by rw [tickPool_getElem]; exact Voice.tick_fits (h.widths hb k)

/-- A newly bound voice meets R22: it sounds its own note, on a channel other than the drum's (R131, R197). -/
theorem Voice.allocated_ok {ch : Channel} (hch : ch ≠ drumChannel) (b : Build) (note : BitVec 7) :
    (Voice.allocated b ch note).Ok b where
  enabled _ := rfl
  disabled hfree := nomatch hfree
  noteSeven _ := by
    have := note.isLt
    simp only [Voice.allocated, BitVec.toNat_setWidth]
    omega
  notDrum _ := hch
  half _ := by simp [Voice.allocated]
  full _ := rfl
  phase _ _ := Nat.zero_le _

/-- A Note On for a pair that no voice holds keeps the pool's invariants (R22, R131). -/
theorem State.allocate_poolInv {s : State} {ch : Channel} {note : Byte} (h : PoolInv s.build s.pool)
    (hch : ch ≠ drumChannel) (hfind : s.find ch note = false) (hnote : note.toNat ≤ 127) :
    PoolInv s.build (s.allocate ch (note.setWidth 7)).1.pool := by
  cases hfree : s.firstFree with
  | none => rw [State.allocate_of_full hfree]; exact h
  | some k =>
    rw [State.allocate_of_free hfree]
    have hnew : (Voice.allocated s.build ch (note.setWidth 7)).note = note := Voice.allocated_note hnote s.build ch
    have hunheld := (s.find_eq_false_iff_unbound ch note).1 hfind
    refine ⟨fun i => ?voices, fun i j => ?oneVoice, fun hb i => ?widths⟩
    case voices =>
      rw [State.setVoice_pool_getElem]
      split
      · exact Voice.allocated_ok hch _ _
      · exact h.voices i
    case oneVoice =>
      rw [State.setVoice_pool_getElem, State.setVoice_pool_getElem]
      split <;> split
      · next hi hj => exact fun _ _ _ _ => hi.symm.trans hj
      · rw [hnew]
        exact fun _ hj hc hn => absurd ⟨hj, hc.symm, hn.symm⟩ (hunheld j)
      · rw [hnew]
        exact fun hi _ hc hn => absurd ⟨hi, hc, hn⟩ (hunheld i)
      · exact h.oneVoice i j
    case widths =>
      rw [State.setVoice_pool_getElem]
      split
      · exact Voice.allocated_fits hb _ _
      · exact h.widths hb i

theorem Voice.reset_fits (b : Build) : (Voice.reset b).Fits b.cw :=
  ⟨Nat.sub_lt (Nat.two_pow_pos _) Nat.one_pos, Nat.sub_lt (Nat.two_pow_pos _) Nat.one_pos, Nat.two_pow_pos _⟩

theorem State.powerUp_poolInv (s : State) : PoolInv s.build s.powerUp.pool where
  voices k := by rw [State.powerUp_voice]; exact .of_free rfl rfl
  oneVoice i j hi := by rw [State.powerUp_voice] at hi; cases hi
  widths _ k := by rw [State.powerUp_voice]; exact Voice.reset_fits _

/-! ## The NoiseDrum -/

/-- The part of `State.Inv` that speaks of the NoiseDrum. -/
structure DrumInv (b : Build) (d : Drum) : Prop where
  ok : d.Ok b
  widths : b.Fits → d.Fits b.cw

theorem DrumInv.setChvol {b : Build} {d : Drum} (h : DrumInv b d) (v : Volume) : DrumInv b { d with chvol := v } :=
  ⟨⟨h.ok.active, h.ok.inRange, h.ok.halved⟩, h.widths⟩

/-- A trigger starts at a program's first segment, and no program is empty (R64, R150). -/
theorem DrumInv.trigger {b : Build} {d : Drum} (h : DrumInv b d) (id : ProgramId) :
    DrumInv b { d with prog := some id, seg := 0, stage := .uninitialized } :=
  ⟨⟨.inr (Option.some_ne_none id), fun _ _ => Nat.succ_pos _, nofun⟩, h.widths⟩

/-- `advance_segment` stays within the program (R35, R151). -/
theorem Drum.Ok.advanceSegment {b : Build} {d : Drum} {id : ProgramId} (h : d.Ok b) (hprog : d.prog = some id) :
    (d.advanceSegment b.program[id]).Ok b := by
  unfold Drum.advanceSegment
  split
  · next hlt =>
    refine ⟨.inr (by simp [hprog]), fun id' hid' => ?_, nofun⟩
    cases hprog.symm.trans hid'
    exact hlt
  · exact ⟨.inl rfl, h.inRange, nofun⟩

theorem drumTick_ok {b : Build} {d : Drum} {seed : Seed} {o : DrumOut} (h : d.Ok b)
    (ho : drumTick b d seed = some o) : o.drum.Ok b := by
  rcases drumTick_cases ho with ⟨-, rfl⟩ | ⟨hfin, p, g, hc, rfl⟩
  · exact h
  · obtain ⟨id, hprog, rfl, -⟩ := Drum.current_eq_some_iff.1 hc
    obtain ⟨e, heprog, heseg, -, -, hhalved, he⟩ := Drum.runSegment_drum b b.program[id] g d seed
    have hdhalved : d.toneHalf = d.tonePeriod >>> 1 ∨ d.stage = .uninitialized := by
      cases hs : d.stage with
      | uninitialized => exact .inr rfl
      | running => exact .inl (h.halved hs)
      | finished => exact absurd hs hfin
    have hok : e.Ok b :=
      ⟨.inr (by simp [heprog, hprog]), fun id' hid' => heseg ▸ h.inRange id' (heprog ▸ hid'), fun _ => hhalved hdhalved⟩
    rcases he with he | he
    · rw [he]; exact hok
    · rw [he]; exact hok.advanceSegment (heprog.trans hprog)

theorem DrumInv.tick {b : Build} {d : Drum} {seed : Seed} {o : DrumOut} (h : DrumInv b d)
    (ho : drumTick b d seed = some o) : DrumInv b o.drum :=
  ⟨drumTick_ok h.ok ho, fun hb => drumTick_fits hb (h.widths hb) ho⟩

theorem Drum.reset_inv (b : Build) (chvol : Volume) : DrumInv b (Drum.reset chvol) := by
  have hpos := Nat.two_pow_pos b.cw
  exact ⟨⟨.inl rfl, nofun, nofun⟩, fun _ => ⟨hpos, hpos, hpos, hpos, hpos, hpos, hpos, hpos⟩⟩

/-! ## The volumes -/

/-- `D.chvol = CV[9]` in the state in which the commits still to come are made (R34). -/
def State.VolumesAgree (s : State) : Prop := s.drain.drum.chvol = s.drain.cv[9]

theorem State.volumesAgree_of_pending_nil {s : State} (h : s.pending = []) :
    s.VolumesAgree ↔ s.drum.chvol = s.cv[9] := by
  rw [State.VolumesAgree, State.drain_of_pending_nil h]

/-- What commits leave in the volumes depends on the volumes and the commits alone (R76, R189). -/
theorem State.foldl_applyCommit_volumes (cs : List Commit) {s t : State} (hcv : t.cv = s.cv)
    (hchvol : t.drum.chvol = s.drum.chvol) :
    (cs.foldl State.applyCommit t).cv = (cs.foldl State.applyCommit s).cv ∧
      (cs.foldl State.applyCommit t).drum.chvol = (cs.foldl State.applyCommit s).drum.chvol := by
  induction cs generalizing s t with
  | nil => exact ⟨hcv, hchvol⟩
  | cons c cs ih =>
    rw [List.foldl_cons, List.foldl_cons]
    cases c with
    | freeVoice k => exact ih hcv hchvol
    | channelVolume ch v => exact ih (by simp [State.applyCommit, hcv]) hchvol
    | drumVolume v => exact ih hcv rfl

/-- What writes neither volume and adds no commit keeps their agreement (R34). -/
theorem State.VolumesAgree.of_frame {s t : State} (h : s.VolumesAgree) (hpending : t.pending = s.pending)
    (hcv : t.cv = s.cv) (hchvol : t.drum.chvol = s.drum.chvol) : t.VolumesAgree := by
  obtain ⟨hdcv, hdchvol⟩ : t.drain.cv = s.drain.cv ∧ t.drain.drum.chvol = s.drain.drum.chvol := by
    rw [State.drain, State.drain, hpending]
    exact State.foldl_applyCommit_volumes s.pending hcv hchvol
  rw [State.VolumesAgree, hdcv, hdchvol]
  exact h

theorem State.VolumesAgree.commitNext {s : State} (h : s.VolumesAgree) : s.commitNext.VolumesAgree := by
  rwa [State.VolumesAgree, State.commitNext_drain]

/-- A releasing message writes no volume (R132, R133). -/
theorem State.VolumesAgree.issue_freeVoice {s : State} (h : s.VolumesAgree) (hp : s.pending = []) (p : Voice → Bool) :
    (s.issue ((s.slots p).map .freeVoice)).VolumesAgree := by
  rw [State.VolumesAgree, State.freeing_drain hp]
  exact (State.volumesAgree_of_pending_nil hp).1 h

/-- A volume message on the drum channel writes both registers, and on another channel neither (R189). -/
theorem State.VolumesAgree.writeVolume {s : State} (h : s.VolumesAgree) (hp : s.pending = []) (ch : Channel)
    (v : Volume) : (s.writeVolume ch v).VolumesAgree := by
  rw [State.volumesAgree_of_pending_nil hp] at h
  rw [State.VolumesAgree, State.writeVolume_drain hp]
  by_cases hch : ch = drumChannel
  · subst hch
    simp
  · have hne : ch.toNat ≠ 9 := fun heq => hch (BitVec.eq_of_toNat_eq heq)
    rw [if_neg hch, Vector.getElem_set_ne _ _ hne]
    exact h

/-! ## The latch -/

/-- Only a routed status is latched, and a Program Change is complete with its first data byte (R29, R181, R182). -/
theorem Rx.Legal.receive {rx rx' : Rx} {b : Byte} (h : rx.Legal) (hr : rx.receive b = .wait rx') : rx'.Legal := by
  rcases Rx.receive_wait hr with ⟨-, hlong, rfl⟩ | ⟨status, rfl, hC, rfl⟩
  · rcases messageLength_cases b with hl | hl | hl
    · rcases (messageLength_eq_three_iff b).1 hl with h8 | h9 | hB
      · exact .inl h8
      · exact .inr (.inl h9)
      · exact .inr (.inr (.inl hB))
    · exact .inr (.inr (.inr ((messageLength_eq_two_iff b).1 hl)))
    · omega
  · rcases h with h8 | h9 | hB | hC'
    · exact .inl h8
    · exact .inr (.inl h9)
    · exact .inr (.inr hB)
    · exact absurd hC' hC

/-! ## The state -/

/-- The invariants, part by part. -/
theorem State.inv_iff {s : State} :
    s.Inv ↔ s.rx.Legal ∧ PoolInv s.build s.pool ∧ DrumInv s.build s.drum ∧ s.VolumesAgree ∧
      (s.build.granularity = .message → s.pending = []) := by
  constructor
  · rintro ⟨hlatch, hvoices, hone, hdrum, hvolumes, hwhole, hwidths⟩
    exact ⟨hlatch, ⟨hvoices, hone, fun hb => (hwidths hb).1⟩, ⟨hdrum, fun hb => (hwidths hb).2⟩, hvolumes, hwhole⟩
  · rintro ⟨hlatch, ⟨hvoices, hone, hpoolWidths⟩, ⟨hdrum, hdrumWidths⟩, hvolumes, hwhole⟩
    exact ⟨hlatch, hvoices, hone, hdrum, hvolumes, hwhole, fun hb => ⟨hpoolWidths hb, hdrumWidths hb⟩⟩

/-- The invariants read neither the schedule, nor the seed, nor the level, and of the latch only that it is legal. -/
theorem State.Inv.of_unread {s t : State} (h : s.Inv) (hrx : t.rx.Legal) (hpool : t.pool = s.pool) (hcv : t.cv = s.cv)
    (hdrum : t.drum = s.drum) (hpending : t.pending = s.pending) (hbuild : t.build = s.build) : t.Inv := by
  obtain ⟨-, hpoolInv, hdrumInv, hvolumes, hwhole⟩ := State.inv_iff.1 h
  refine State.inv_iff.2 ⟨hrx, ?_, ?_, hvolumes.of_frame hpending hcv (by rw [hdrum]), ?_⟩
  · rwa [hbuild, hpool]
  · rwa [hbuild, hdrum]
  · rwa [hbuild, hpending]

theorem State.Inv.commitNext {s : State} (h : s.Inv) : s.commitNext.Inv := by
  obtain ⟨hlatch, hpool, hdrum, hvolumes, hwhole⟩ := State.inv_iff.1 h
  refine State.inv_iff.2 ⟨?latch, ?pool, ?drum, hvolumes.commitNext, fun hg => ?whole⟩
  case latch => rwa [State.commitNext_rx]
  case pool => rw [State.commitNext_build]; exact hpool.of_kept_or_releasedTo s.commitNext_voice
  case drum => rw [State.commitNext_frame]; exact hdrum.setChvol _
  case whole =>
    rw [State.commitNext_build] at hg
    rw [State.commitNext_pending, hwhole hg, List.tail_nil]

/-- Commits whose volumes agree in the end keep the invariants, at either granularity (R76). -/
theorem State.Inv.issue {s : State} (h : s.Inv) {cs : List Commit} (hvolumes : (s.issue cs).VolumesAgree) :
    (s.issue cs).Inv := by
  obtain ⟨hlatch, hpool, hdrum, -, -⟩ := State.inv_iff.1 h
  refine State.inv_iff.2 ⟨?latch, ?pool, ?drum, hvolumes, fun hg => ?whole⟩
  case latch => rwa [State.issue_rx]
  case pool => rw [State.issue_build]; exact hpool.of_kept_or_releasedTo (s.issue_voice cs)
  case drum => rw [State.issue_frame]; exact hdrum.setChvol _
  case whole =>
    rw [State.issue_build] at hg
    exact s.issue_whole cs hg

theorem State.Inv.trigger {s : State} (h : s.Inv) (id : ProgramId) : (s.trigger id).Inv := by
  obtain ⟨hlatch, hpool, hdrum, hvolumes, hwhole⟩ := State.inv_iff.1 h
  exact State.inv_iff.2 ⟨hlatch, hpool, hdrum.trigger id, hvolumes.of_frame rfl rfl rfl, hwhole⟩

/-- An allocation writes the pool alone (R131). -/
theorem State.allocate_frame (s : State) (ch : Channel) (note : BitVec 7) :
    (s.allocate ch note).1 = { s with pool := (s.allocate ch note).1.pool } := by
  unfold State.allocate
  split <;> rfl

theorem State.Inv.allocate {s : State} {ch : Channel} {note : Byte} (h : s.Inv) (hch : ch ≠ drumChannel)
    (hfind : s.find ch note = false) (hnote : note.toNat ≤ 127) : (s.allocate ch (note.setWidth 7)).1.Inv := by
  obtain ⟨hlatch, hpool, hdrum, hvolumes, hwhole⟩ := State.inv_iff.1 h
  have hnew := State.allocate_poolInv hpool hch hfind hnote
  rw [State.allocate_frame]
  exact State.inv_iff.2 ⟨hlatch, hnew, hdrum, hvolumes.of_frame rfl rfl rfl, hwhole⟩

theorem State.Inv.ticked {s : State} {o : DrumOut} (h : s.Inv) (ho : drumTick s.build s.drum s.seed = some o) :
    (s.ticked o).Inv := by
  obtain ⟨hlatch, hpool, hdrum, hvolumes, hwhole⟩ := State.inv_iff.1 h
  obtain ⟨-, hchvol⟩ := drumTick_prog_chvol ho
  refine State.inv_iff.2 ⟨?latch, ?pool, ?drum, ?volumes, ?whole⟩
  case latch => rwa [State.ticked_rx]
  case pool => rw [State.ticked_build, State.ticked_pool]; exact hpool.tick
  case drum => rw [State.ticked_build, State.ticked_drum]; exact hdrum.tick ho
  case volumes =>
    exact hvolumes.of_frame (s.ticked_pending o) (s.ticked_cv o) (by rw [State.ticked_drum, hchvol])
  case whole => rwa [State.ticked_build, State.ticked_pending]

/-- Power-up reaches the invariants from any state (R40). -/
theorem State.powerUp_inv (s : State) : s.powerUp.Inv := by
  have hvolumes : s.powerUp.VolumesAgree :=
    (State.volumesAgree_of_pending_nil s.powerUp_pending).2 (s.powerUp_channelVolume 9).symm
  exact State.inv_iff.2 ⟨trivial, s.powerUp_poolInv, Drum.reset_inv s.build _, hvolumes, fun _ => rfl⟩

/-- Every well-formed message keeps the invariants: a Note On is never on the drum channel (R93, R197). -/
theorem State.Inv.exec {i : Instr} {s t : State} (h : s.Inv) (hp : s.pending = []) (hwf : i.wellFormed = true)
    (hx : exec i s = .next t) : t.Inv := by
  obtain ⟨-, -, -, hvolumes, -⟩ := State.inv_iff.1 h
  rcases exec_cases hx with rfl | ⟨p, rfl⟩ | ⟨ch, v, rfl⟩ | ⟨id, rfl⟩ | ⟨ch, note, velocity, rfl, hfind, hnote, rfl⟩
  · exact h
  · exact h.issue (hvolumes.issue_freeVoice hp p)
  · exact h.issue (hvolumes.writeVolume hp ch v)
  · exact h.trigger id
  · exact h.allocate ((wellFormed_noteOn_iff ch note velocity).1 hwf).1 hfind hnote

/-- Settles O46: each thing a step can do keeps every part of the invariants, and the message that a byte completes is
decoded and so well-formed. -/
theorem stepKeepsInvariant : Obligations.StepKeepsInvariant := by
  intro s t hs h
  have hnext (rest : List Event) : State.Inv { s with inbox := rest } := hs.of_unread hs.latch rfl rfl rfl rfl rfl
  rcases step_cases h with ⟨-, rfl⟩ | ⟨rest, -, rfl⟩ | ⟨v, rest, -, rfl⟩ | ⟨rest, -, rfl⟩ | ⟨rest, o, -, ho, rfl⟩ |
    ⟨b, rest, rx, -, -, hr, rfl⟩ | ⟨b, rest, i, -, hp, hd, hx⟩
  · exact hs.commitNext
  · exact State.powerUp_inv _
  · exact hs.of_unread hs.latch rfl rfl rfl rfl rfl
  · exact (hnext rest).commitNext
  · exact (hnext rest).ticked ho
  · exact hs.of_unread (hs.latch.receive hr) rfl rfl rfl rfl rfl
  · have hidle : State.Inv { s with inbox := rest, rx := .idle } := hs.of_unread trivial rfl rfl rfl rfl rfl
    obtain ⟨hwf, -⟩ := encodeOfDecode _ _ _ hd
    exact hidle.exec hp hwf hx

/-- Settles O45: the reset state of a build is its own power-up. -/
theorem resetMeetsInvariant : Obligations.ResetMeetsInvariant := by
  have hreset (b : Build) : (State.resetOf b).Inv := (State.resetOf b).powerUp_inv
  exact ⟨hreset Config.build, hreset⟩

/-- Settles O47: with nothing pending the state in which the commits are made is the state itself. -/
theorem drumVolumeIsChannelNine : Obligations.DrumVolumeIsChannelNine := by
  intro s hs hnone
  exact (State.volumesAgree_of_pending_nil (hnone.elim id hs.whole)).1 hs.drumVolume

end Sys2Proof.Machine
end

section
/-! Inferences of the spec about the messages: how the pool fills (41_voice_pool.md), the drum channel and the example
bytes (43_midi_dispatcher.md). -/

namespace Sys2Proof.Machine

open Config

/-- Settles O4: each example is read by the decoder as its message. -/
theorem exampleWordsDecode : Obligations.ExampleWordsDecode := by
  unfold Obligations.ExampleWordsDecode
  decide

/-- No voice is bound on the drum channel (R197). -/
theorem State.Inv.not_onChannel_drum {s : State} (h : s.Inv) (k : VoiceIx) :
    s.pool[k].onChannel drumChannel = false :=
  Bool.eq_false_iff.2 fun hon =>
    have ⟨hbound, hch⟩ := (Voice.onChannel_iff _ _).1 hon
    (h.voices k).notDrum hbound hch

/-- Settles O20: on the drum channel no voice meets what a releasing message frees. -/
theorem drumChannelReleasesNothing : Obligations.DrumChannelReleasesNothing := by
  intro d1 d2 s hs hp
  have hreleaseChannel : s.releaseChannel drumChannel = s := State.issue_slots_nil hp hs.not_onChannel_drum
  obtain ⟨hnoteOff, -⟩ := releaseOfUnboundPairIsNoOp drumChannel d1 d2 s hp fun k ⟨hbound, hch, _⟩ =>
    (hs.voices k).notDrum hbound hch
  refine ⟨hnoteOff, ?_, ?_⟩
  · rw [exec_releasesChannel (.inl rfl), hreleaseChannel]
  · rw [exec_releasesChannel (d2 := d2) (.inr rfl), hreleaseChannel]

/-- The first slots of `t` hold the pairs in order, and `t` has every later slot as `s` has it. -/
structure State.FilledTo (s t : State) (pairs : List (Channel × BitVec 7)) : Prop where
  taken : ∀ (k : VoiceIx) (p : Channel × BitVec 7), pairs[(k : Nat)]? = some p →
    t.pool[k].bound = true ∧ t.pool[k].ch = p.1 ∧ t.pool[k].note = p.2.setWidth 8
  left : ∀ k : VoiceIx, pairs.length ≤ k → t.pool[k] = s.pool[k]

/-- The bound slots are the first ones, one for each pair. -/
theorem State.FilledTo.bound_iff {s t : State} {pairs : List (Channel × BitVec 7)} (h : s.FilledTo t pairs)
    (hs : ∀ k : VoiceIx, s.pool[k].bound = false) (k : VoiceIx) : t.pool[k].bound = true ↔ (k : Nat) < pairs.length := by
  constructor
  · intro hbound
    by_contra hge
    rw [h.left k (Nat.le_of_not_lt hge), hs k] at hbound
    cases hbound
  · exact fun hlt => (h.taken k _ (List.getElem?_eq_getElem hlt)).1

theorem setWidth_eight_inj {x y : BitVec 7} (h : x.setWidth 8 = y.setWidth 8) : x = y := by
  have := congrArg (BitVec.setWidth 7) h
  simpa using this

/-- A pair not among those taken is held by no voice (R130). -/
theorem State.FilledTo.find_eq_false {s t : State} {pairs : List (Channel × BitVec 7)} (h : s.FilledTo t pairs)
    (hs : ∀ k : VoiceIx, s.pool[k].bound = false) {p : Channel × BitVec 7} (hp : p ∉ pairs) :
    t.find p.1 (p.2.setWidth 8) = false := by
  rw [State.find_eq_false_iff_unbound]
  rintro k ⟨hbound, hch, hnote⟩
  have hlt := (h.bound_iff hs k).1 hbound
  obtain ⟨-, hch', hnote'⟩ := h.taken k _ (List.getElem?_eq_getElem hlt)
  have heq : pairs[(k : Nat)] = p := Prod.ext (hch'.symm.trans hch) (setWidth_eight_inj (hnote'.symm.trans hnote))
  exact hp (heq ▸ List.getElem_mem hlt)

theorem setWidth_eight_toNat_le (note : BitVec 7) : (note.setWidth 8 : Byte).toNat ≤ 127 := by
  have := note.isLt
  rw [BitVec.toNat_setWidth]
  omega

/-- A new pair takes the first slot after those taken (R131, R138). -/
theorem State.FilledTo.noteOn {s t : State} {pairs : List (Channel × BitVec 7)} (h : s.FilledTo t pairs)
    (hs : ∀ k : VoiceIx, s.pool[k].bound = false) {p : Channel × BitVec 7} (hp : p ∉ pairs) (hroom : pairs.length < 20) :
    ∃ u, exec (.noteOn p.1 (p.2.setWidth 8) 1) t = .next u ∧ s.FilledTo u (pairs ++ [p]) := by
  have hfree : t.firstFree = some ⟨pairs.length, hroom⟩ := by
    refine (t.firstFree_eq_some_iff _).2 ⟨?_, fun j hj => (h.bound_iff hs j).2 hj⟩
    exact Bool.eq_false_iff.2 (mt (h.bound_iff hs _).1 (Nat.lt_irrefl _))
  have hle := setWidth_eight_toNat_le p.2
  refine ⟨_, exec_noteOn_of_free (h.find_eq_false hs hp) hle hfree 1, fun k q hq => ?taken, fun k hk => ?left⟩
  case taken =>
    by_cases hk : k = ⟨pairs.length, hroom⟩
    · subst hk
      obtain rfl : p = q := by simpa using hq
      rw [State.setVoice_pool_same]
      exact ⟨rfl, rfl, Voice.allocated_note hle _ _⟩
    · rw [State.setVoice_pool_of_ne hk]
      have hne : (k : Nat) ≠ pairs.length := fun heq => hk (Fin.ext heq)
      have hlt := (List.getElem?_eq_some_iff.1 hq).1
      rw [List.length_append, List.length_singleton] at hlt
      rw [List.getElem?_append_left (by omega)] at hq
      exact h.taken k q hq
  case left =>
    rw [List.length_append, List.length_singleton] at hk
    rw [State.setVoice_pool_of_ne (by rintro rfl; exact absurd hk (Nat.not_succ_le_self _))]
    exact h.left k (by omega)

theorem playNotes_cons_of_next {s t : State} {p : Channel × BitVec 7}
    (h : exec (.noteOn p.1 (p.2.setWidth 8) 1) s = .next t) (more : List (Channel × BitVec 7)) :
    playNotes s (p :: more) = playNotes t more := by
  simp only [playNotes, h]

/-- Distinct pairs take the slots that are left in order (R138). -/
theorem State.FilledTo.playNotes {s : State} (hs : ∀ k : VoiceIx, s.pool[k].bound = false)
    (more : List (Channel × BitVec 7)) {t : State} {pairs : List (Channel × BitVec 7)} (h : s.FilledTo t pairs)
    (hnodup : (pairs ++ more).Nodup) (hroom : (pairs ++ more).length ≤ 20) :
    ∃ u, playNotes t more = some u ∧ s.FilledTo u (pairs ++ more) := by
  induction more generalizing t pairs with
  | nil => exact ⟨t, rfl, by rwa [List.append_nil]⟩
  | cons p more ih =>
    rw [List.append_cons] at hnodup hroom ⊢
    have hp : p ∉ pairs := fun hmem => List.disjoint_of_nodup_append (hnodup.of_append_left) hmem (List.mem_singleton_self p)
    have hlt : pairs.length < 20 := by simp only [List.length_append, List.length_singleton] at hroom; omega
    obtain ⟨u, hu, hfilled⟩ := h.noteOn hs hp hlt
    rw [playNotes_cons_of_next hu]
    exact ih hfilled hnodup hroom

/-- With every slot bound a Note On changes nothing: its pair is bound, or there is no slot for it (R131, R186). -/
theorem exec_noteOn_of_full {s : State} (h : ∀ k : VoiceIx, s.pool[k].bound = true) (ch : Channel) {note : Byte}
    (hnote : note.toNat ≤ 127) (velocity : Byte) : exec (.noteOn ch note velocity) s = .next s := by
  cases hf : s.find ch note with
  | true => exact exec_noteOn_of_bound hf velocity
  | false =>
    rw [exec_noteOn_of_unbound hf, if_neg (Nat.not_lt.2 hnote), State.allocate_of_full (s.firstFree_eq_none_iff.2 h)]

/-- Settles O18: the empty pool is filled to no pair, each Note On fills it by one, and after twenty every slot is bound. -/
theorem poolFillsInSlotOrder : Obligations.PoolFillsInSlotOrder := by
  intro s pairs hs hnodup hlen
  have hempty : s.FilledTo s [] := ⟨nofun, fun _ _ => rfl⟩
  obtain ⟨t, ht, hfilled⟩ := State.FilledTo.playNotes hs pairs hempty hnodup hlen
  rw [List.nil_append] at hfilled
  refine ⟨t, ht, fun k p hk => ?_, hfilled.left, fun hfull p => ?_⟩
  · obtain ⟨hbound, hch, hnote⟩ := hfilled.taken k p hk
    exact ⟨hbound, hch, by rw [hnote, BitVec.toNat_setWidth_of_le (by decide)]⟩
  · have hbound (k : VoiceIx) : t.pool[k].bound = true := (hfilled.bound_iff hs k).2 (k.isLt.trans_eq hfull.symm)
    rw [playNotes_cons_of_next (exec_noteOn_of_full hbound p.1 (setWidth_eight_toNat_le p.2) 1), playNotes]

end Sys2Proof.Machine
end

section
/-! The period of the PRNG (40_prng.md R122). The recurrence is the affine map `x ↦ 9 x + 0x3711`, and so is each of its
powers. -/

namespace Sys2Proof.Machine

/-- The coefficients `(a, c)` of `2^k` steps of the recurrence as the map `x ↦ a x + c`: each squaring composes the map
with itself. -/
def prngCoeffs : Nat → Seed × Seed
  | 0 => (9, 0x3711)
  | k + 1 => ((prngCoeffs k).1 * (prngCoeffs k).1, (prngCoeffs k).1 * (prngCoeffs k).2 + (prngCoeffs k).2)

theorem prngStep_iterate_two_pow (k : Nat) (seed : Seed) :
    prngStep^[2 ^ k] seed = (prngCoeffs k).1 * seed + (prngCoeffs k).2 := by
  induction k generalizing seed with
  | zero => simp only [pow_zero, Function.iterate_one, prngStep, prngCoeffs, BitVec.mul_comm]
  | succ k ih =>
    rw [pow_succ, mul_two, Function.iterate_add_apply, ih, ih, prngCoeffs]
    ring

/-- Half the period moves every seed by half the range. -/
theorem prngStep_iterate_half (seed : Seed) : prngStep^[2 ^ 15] seed = seed + 0x8000 := by
  have hcoeffs : prngCoeffs 15 = (1, 0x8000) := by decide
  rw [prngStep_iterate_two_pow, hcoeffs, one_mul]

theorem prngStep_iterate_full (seed : Seed) : prngStep^[2 ^ 16] seed = seed := by
  have hcoeffs : prngCoeffs 16 = (1, 0) := by decide
  rw [prngStep_iterate_two_pow, hcoeffs, one_mul, add_zero]

/-- The period divides `2^16` and does not divide `2^15`. -/
theorem prngStep_minimalPeriod (seed : Seed) : Function.minimalPeriod prngStep seed = 2 ^ 16 := by
  refine Function.minimalPeriod_eq_prime_pow (fun hhalf => ?_) (prngStep_iterate_full seed)
  have hmoved : seed + 0x8000 = seed := (prngStep_iterate_half seed).symm.trans hhalf
  exact absurd (add_eq_left.1 hmoved) (by decide)

/-- Settles O27: 65536 is the minimal period of every seed. -/
theorem prngFullPeriod : Obligations.PrngFullPeriod := by
  refine fun seed => ⟨prngStep_iterate_full seed, fun n hpos hlt hn => ?_⟩
  have hle := Function.IsPeriodicPt.minimalPeriod_le hpos hn
  rw [prngStep_minimalPeriod] at hle
  omega

end Sys2Proof.Machine
end

section
/-! Inferences of the spec about the tick: that it always runs, silence (44_mixer.md), and the waveform of a voice
(41_voice_pool.md R136). -/

namespace Sys2Proof.Machine

open Config

/-- Settles O49: the invariants keep the NoiseDrum at a segment, where its tick answers. -/
theorem everyTickCompletes : Obligations.EveryTickCompletes := by
  intro s rest hs hi
  obtain ⟨o, ho⟩ := drumTick_isSome hs.drum s.seed
  exact ⟨_, step_tick_of_drumTick hi ho, State.ticked_inbox _ o⟩

/-! ## Silence -/

theorem tickPool_of_free {pool : Vector Voice 20} (h : ∀ k : VoiceIx, pool[k].bound = false) (b : Build) :
    tickPool pool b = pool := by
  refine Vector.ext fun k hk => ?_
  have hvoice := tickPool_getElem pool b ⟨k, hk⟩
  rwa [Voice.tick_free (h ⟨k, hk⟩)] at hvoice

theorem State.voiceTotal_of_free {s : State} (h : ∀ k : VoiceIx, s.pool[k].bound = false) : s.voiceTotal = 0 := by
  rw [State.voiceTotal_eq_sum]
  refine Finset.sum_eq_zero fun k _ => ?_
  rw [State.contribution_eq, if_neg]
  rw [h k]
  exact nofun

theorem mixLevel_zero : mixLevel 0 = 0 := by decide

/-- A tick of a silent machine writes `OUT_LEVEL` alone (R221, R222). -/
theorem step_tick_of_silent {s : State} {rest : List Event} (hi : s.inbox = .tick :: rest)
    (hfree : ∀ k : VoiceIx, s.pool[k].bound = false) (hfin : s.drum.stage = .finished) :
    step s = .next { s with inbox := rest, outLevel := 0 } := by
  have htotal : State.voiceTotal { s with inbox := rest } = 0 := State.voiceTotal_of_free hfree
  rw [step_tick_of_drumTick hi (drumTick_of_finished hfin s.build s.seed), State.ticked, htotal,
    tickPool_of_free hfree, show (0 : Byte).toNat = 0 from rfl, add_zero, mixLevel_zero]

theorem Core.run_succ_of_next {n : Nat} {s t : State} (h : step s = .next t) : core.run (n + 1) s = core.run n t := by
  have hstep : core.step s = .next t := h
  simp only [Host.Core.run, hstep]

/-- Settles O34: a free pool adds nothing to the level and a finished NoiseDrum is silent; the reset state is such a state,
and its level is 0 already. -/
theorem silenceWithoutVoicesOrDrum : Obligations.SilenceWithoutVoicesOrDrum := by
  refine ⟨fun s rest hi hfree hfin => step_tick_of_silent hi hfree hfin, fun b n => ?_⟩
  induction n with
  | zero => rfl
  | succ n ih =>
    have hfree (k : VoiceIx) : (State.resetOf b).pool[k].bound = false := by
      rw [show (State.resetOf b).pool[k] = Voice.reset b from (State.resetOf b).powerUp_voice k]
      rfl
    have htick : step ((State.resetOf b).scheduled (List.replicate (n + 1) .tick)) =
        .next ((State.resetOf b).scheduled (List.replicate n .tick)) := step_tick_of_silent rfl hfree rfl
    exact (Core.run_succ_of_next htick).trans ih

/-! ## The waveform -/

/-- The voices of R136: sounding, with half-period `H` and full period `2H`. -/
structure Voice.Square (H : Nat) (v : Voice) : Prop where
  bound : v.bound = true
  en : v.en = true
  half : v.half = H
  full : v.full = 2 * H

/-- The ticks of a voice change its phase alone (R25). -/
theorem Voice.Square.ticked {H : Nat} {v : Voice} (h : v.Square H) (b : Build) (k : Nat) : (v.ticked b k).Square H := by
  induction k with
  | zero => exact h
  | succ k ih =>
    rw [Voice.ticked, Voice.tick_frame]
    exact ⟨ih.bound, ih.en, ih.half, ih.full⟩

/-- A tick `r` into the period: the phase is advanced to `r + 1`, by the wrap of `2H + 1` when `r` is 0, and the voice is
high below the half-period and on the wrap (R134, R136). -/
theorem Voice.Square.tick_of_advanced {H r : Nat} {v : Voice} {b : Build} (h : v.Square H) (hH : 2 ≤ H) (hr : r < 2 * H)
    (hadv : v.advanced b = r + 1 ∨ r = 0 ∧ v.advanced b = 2 * H + 1) :
    (v.tick b).2 = decide (r < H - 1) ∧ (v.tick b).1.phase = r + 1 := by
  obtain ⟨hbound, hen, hhalf, hfull⟩ := h
  rcases hadv with hadv | ⟨rfl, hadv⟩
  · by_cases hlow : r + 1 < H
    · rw [Voice.tick_below hbound (by omega), hen]
      exact ⟨(decide_eq_true (by omega)).symm, hadv⟩
    · rw [Voice.tick_between hbound (by omega) (by omega)]
      exact ⟨(decide_eq_false (by omega)).symm, hadv⟩
  · rw [Voice.tick_past hbound (by omega) (by omega), hen]
    exact ⟨(decide_eq_true (by omega)).symm, by dsimp only; omega⟩

/-- At increment 1 no phase up to an even full period below `2^CW` wraps the width (R39). -/
theorem Voice.advanced_of_phase_le {H : Nat} {v : Voice} {b : Build} (hinc : b.voiceTickInc = 1) (hH : 0 < H)
    (hcw : 2 * H < 2 ^ b.cw) (hphase : v.phase ≤ 2 * H) : v.advanced b = v.phase + 1 := by
  obtain ⟨n, hn⟩ : ∃ n, b.cw = n + 1 := Nat.exists_eq_succ_of_ne_zero fun hzero => by rw [hzero] at hcw; omega
  rw [hn, pow_succ] at hcw
  rw [Voice.advanced, hinc]
  exact addMod_of_lt (by rw [hn, pow_succ]; omega)

/-- Within a period the remainder counts up, and at its end it returns to 0. -/
theorem mod_succ_cases {m : Nat} (hm : 0 < m) (k : Nat) :
    (k + 1) % m = k % m + 1 ∨ (k + 1) % m = 0 ∧ k % m + 1 = m := by
  rw [← Nat.mod_add_mod]
  rcases Nat.lt_or_eq_of_le (Nat.mod_lt k hm) with hlt | heq
  · exact .inl (Nat.mod_eq_of_lt hlt)
  · exact .inr ⟨(congrArg (· % m) heq).trans (Nat.mod_self m), heq⟩

/-- Settles O35, by the tick's place in the period: what it advances the phase to is told by the tick before. -/
theorem voiceWaveform : Obligations.VoiceWaveform := by
  intro b v H hinc hH hcw hbound hen hphase hhalf hfull k
  have hsquare (k : Nat) : (v.ticked b k).Square H := Voice.Square.ticked ⟨hbound, hen, hhalf, hfull⟩ b k
  have hr (k : Nat) : k % (2 * H) < 2 * H := Nat.mod_lt k (by omega)
  have hadv : (v.ticked b k).advanced b = k % (2 * H) + 1 ∨
      k % (2 * H) = 0 ∧ (v.ticked b k).advanced b = 2 * H + 1 := by
    induction k with
    | zero =>
      have hstart : (v.ticked b 0).phase = 0 := hphase
      rw [Voice.advanced_of_phase_le hinc (by omega) hcw (by omega), hstart, Nat.zero_mod]
      exact .inl rfl
    | succ k ih =>
      have hnext : (v.ticked b (k + 1)).phase = k % (2 * H) + 1 := ((hsquare k).tick_of_advanced hH (hr k) ih).2
      rw [Voice.advanced_of_phase_le hinc (by omega) hcw (hnext.trans_le (hr k)), hnext]
      rcases mod_succ_cases (m := 2 * H) (by omega) k with hmod | ⟨hmod, hend⟩
      · exact .inl (by rw [hmod])
      · exact .inr ⟨hmod, by rw [hend]⟩
  exact (hsquare k).tick_of_advanced hH (hr k) hadv

end Sys2Proof.Machine
end

section
/-! Inferences of the spec about the NoiseDrum (42_noise_drum.md R161, R166): the amplitudes it can output, and the segment
that cannot end. -/

namespace Sys2Proof.Machine

open Config

/-! ## The amplitude -/

/-- A 4-bit volume, decayed and scaled by another, is an index below 16 (R159 to R161). -/
theorem Drum.envelopeAmp_cases (b : Build) (g : Segment) (d : Drum) :
    d.envelopeAmp b g = 0 ∨ ∃ k : Fin 17, (k : Nat) < 16 ∧ d.envelopeAmp b g = b.drumCurve[k] := by
  unfold Drum.envelopeAmp
  split
  · exact .inr ⟨sustainedIndex g, g.volume.isLt, rfl⟩
  · split
    · exact .inl rfl
    · refine .inr ⟨decayedIndex g d.envElapsed d.chvol, ?_, rfl⟩
      have hscaled := Nat.mul_le_mul (Nat.le_of_lt_succ (decayedVolume_lt g d.envElapsed))
        (Nat.le_of_lt_succ d.chvol.isLt)
      show decayedVolume g d.envElapsed * d.chvol.toNat / 16 < 16
      omega

/-- Settles O40: a tick is silent, or sounds the envelope. -/
theorem drumAmplitudeFromCurve : Obligations.DrumAmplitudeFromCurve := by
  intro b d seed o ho
  rcases drumTick_cases ho with ⟨-, rfl⟩ | ⟨-, p, g, -, rfl⟩
  · exact .inl rfl
  · cases ht : d.tonedHigh b g with
    | false => rw [Drum.runSegment_low ht]; exact .inl rfl
    | true =>
      rw [Drum.runSegment_high ht]
      by_cases hn : noiseVote g ((d.toned b g).noisePath b g seed).1 = true
      · rw [Drum.combine_amp_of_vote hn]; exact Drum.envelopeAmp_cases b g _
      · rw [Drum.combine_amp_of_not_vote hn]; exact .inl rfl

/-! ## The segment that cannot end -/

/-- Past the envelope a draw gives the noise bit 0 (R157). -/
theorem noiseBitOf_of_decayed {g : Segment} {elapsed : Nat} (henv : g.envDuration ≠ 0) (hpast : g.envDuration < elapsed)
    (r : Byte) : noiseBitOf g elapsed r = false := by
  rw [← Bool.not_eq_true, noiseBitOf_eq_true_iff]
  omega

theorem Drum.noiseSweep_envElapsed (b : Build) (g : Segment) (d : Drum) :
    (d.noiseSweep b g).envElapsed = d.envElapsed := by
  unfold Drum.noiseSweep; dsimp only; split <;> rfl

/-- Past the envelope the noise path keeps a held bit of 0, drawn again or not (R157). -/
theorem Drum.noisePath_noiseBit_of_decayed {g : Segment} {d : Drum} (henv : g.envDuration ≠ 0)
    (hpast : g.envDuration < d.envElapsed) (hbit : d.noiseBit = false) (b : Build) (seed : Seed) :
    (d.noisePath b g seed).1.noiseBit = false := by
  cases hmask : g.mixMask[1] with
  | true => rw [Drum.noisePath_of_disabled hmask]; exact hbit
  | false =>
    rw [Drum.noisePath_of_enabled hmask]
    by_cases hdraw : (d.noiseSweep b g).noisePeriod ≤ addMod b (d.noiseSweep b g).noisePhase b.drumPhaseInc
    · rw [Drum.noiseSample_of_reached hdraw]
      exact noiseBitOf_of_decayed henv (d.noiseSweep_envElapsed b g ▸ hpast) _
    · rw [Drum.noiseSample_of_not_reached hdraw]
      exact (d.noiseSweep_noiseBit b g).trans hbit

/-- A tick past the envelope with a held bit of 0 keeps the bit, so the noise votes 0: it is silent and does not advance
(R158, R166). -/
theorem Drum.runSegment_of_decayed {b : Build} {g : Segment} {d : Drum} (h : d.stage = .running)
    (henv : g.envDuration ≠ 0) (hmask : g.mixMask[1] = false) (hbit : d.noiseBit = false)
    (hpast : g.envDuration < addMod b d.envElapsed b.drumTimeInc) (p : Program) (seed : Seed) :
    (d.runSegment b p g seed).amp = 0 ∧ d.SamePosition (d.runSegment b p g seed).drum ∧
      (d.runSegment b p g seed).drum.noiseBit = false ∧
      (d.runSegment b p g seed).drum.envElapsed = addMod b d.envElapsed b.drumTimeInc := by
  obtain ⟨-, -, -, htonedBit⟩ := Drum.toned_noise_fields h b g
  have htonedElapsed : (d.toned b g).envElapsed = addMod b d.envElapsed b.drumTimeInc := by rw [Drum.toned_frame h]
  have hkept : (d.runSegment b p g seed).drum.noiseBit = false := by
    by_cases ht : toneVote b g d.tonePhase (d.runSegment b p g seed).drum
    · obtain ⟨-, -, -, -, hpathed, -⟩ := Drum.runSegment_noise_fields ht
      rw [hpathed, Drum.pathed]
      exact Drum.noisePath_noiseBit_of_decayed henv (htonedElapsed ▸ hpast) (htonedBit.trans hbit) b seed
    · rw [Drum.runSegment_of_not_toneVote ht]
      exact htonedBit.trans hbit
  have hvote : ¬noiseVoteOf g (d.runSegment b p g seed).drum := fun hn => by
    have hset := hn hmask
    rw [hkept] at hset
    cases hset
  obtain ⟨hamp, hposition⟩ := Drum.runSegment_of_not_voted h fun hv => hvote hv.2
  refine ⟨hamp, hposition, hkept, ?_⟩
  rw [Drum.runSegment_frame]
  exact htonedElapsed

/-- What `k` ticks of the NoiseDrum leave while it stays at the segment `g` of `p`. -/
def Drum.segmentRun (b : Build) (p : Program) (g : Segment) (d : Drum) (seed : Seed) : Nat → DrumOut
  | 0 => { drum := d, seed := seed, amp := 0 }
  | k + 1 => (Drum.segmentRun b p g d seed k).drum.runSegment b p g (Drum.segmentRun b p g d seed k).seed

theorem Drum.SamePosition.trans {d e f : Drum} (hde : d.SamePosition e) (hef : e.SamePosition f) : d.SamePosition f :=
  ⟨hef.1.trans hde.1, hef.2.1.trans hde.2.1, hef.2.2.trans hde.2.2⟩

/-- The current segment is told by the position (R33). -/
theorem Drum.SamePosition.current {d e : Drum} (h : d.SamePosition e) (b : Build) : e.current b = d.current b := by
  obtain ⟨hprog, hseg, -⟩ := h
  rw [Drum.current, Drum.current, hprog, hseg]

/-- `e` is `d` hanging `k` ticks later: at the same segment, the held bit 0, the elapsed counter `k` quanta on. -/
structure Drum.HangsAfter (b : Build) (d : Drum) (k : Nat) (e : Drum) : Prop where
  position : d.SamePosition e
  noiseBit : e.noiseBit = false
  envElapsed : e.envElapsed = d.envElapsed + k * b.drumTimeInc

/-- A hanging record hangs on, for as long as the elapsed counter does not wrap (R166). -/
theorem Drum.HangsAfter.runSegment {b : Build} {g : Segment} {d e : Drum} {k : Nat} (h : d.HangsAfter b k e)
    (hrun : d.stage = .running) (henv : g.envDuration ≠ 0) (hmask : g.mixMask[1] = false)
    (hpast : g.envDuration < d.envElapsed + b.drumTimeInc)
    (hwrap : d.envElapsed + (k + 1) * b.drumTimeInc < 2 ^ b.cw) (p : Program) (seed : Seed) :
    (e.runSegment b p g seed).amp = 0 ∧ d.HangsAfter b (k + 1) (e.runSegment b p g seed).drum := by
  obtain ⟨hposition, hbit, helapsed⟩ := h
  have hsum : e.envElapsed + b.drumTimeInc = d.envElapsed + (k + 1) * b.drumTimeInc := by
    rw [helapsed, Nat.add_assoc, ← Nat.succ_mul]
  have hadd : addMod b e.envElapsed b.drumTimeInc = d.envElapsed + (k + 1) * b.drumTimeInc := by
    rw [addMod_of_lt (hsum ▸ hwrap), hsum]
  have hquantum : b.drumTimeInc ≤ (k + 1) * b.drumTimeInc := Nat.le_mul_of_pos_left _ (Nat.succ_pos k)
  have hstill : g.envDuration < addMod b e.envElapsed b.drumTimeInc := by omega
  obtain ⟨hamp, hsame, hkept, helapsed'⟩ :=
    Drum.runSegment_of_decayed (hposition.2.2.trans hrun) henv hmask hbit hstill p seed
  exact ⟨hamp, hposition.trans hsame, hkept, helapsed'.trans hadd⟩

/-- Settles O43, by induction on the ticks: each finds the record hanging at the same segment and leaves it so. -/
theorem decayedNoiseSegmentHangs : Obligations.DecayedNoiseSegmentHangs := by
  intro b d seed p g n hrun hc henv hmask hbit hpast hwrap
  have hquanta {k : Nat} (hk : k < n) : d.envElapsed + (k + 1) * b.drumTimeInc < 2 ^ b.cw :=
    Nat.lt_of_le_of_lt (Nat.add_le_add_left (Nat.mul_le_mul_right _ hk) _) hwrap
  have hhangs (k : Nat) (hk : k ≤ n) : d.HangsAfter b k (Drum.segmentRun b p g d seed k).drum := by
    induction k with
    | zero => exact ⟨⟨rfl, rfl, rfl⟩, hbit, by rw [Nat.zero_mul]; rfl⟩
    | succ k ih => exact ((ih (Nat.le_of_succ_le hk)).runSegment hrun henv hmask hpast (hquanta hk) p _).2
  refine ⟨Drum.segmentRun b p g d seed, rfl, fun k hk => ?_⟩
  have hnow := hhangs k (Nat.le_of_lt hk)
  have hstage : (Drum.segmentRun b p g d seed k).drum.stage = .running := hnow.position.2.2.trans hrun
  obtain ⟨hamp, hnext⟩ := hnow.runSegment hrun henv hmask hpast (hquanta hk) p (Drum.segmentRun b p g d seed k).seed
  refine ⟨?_, hamp, hnext.noiseBit, hnext.position⟩
  rw [drumTick_of_current (by rw [hstage]; exact nofun) ((hnow.position.current b).trans hc)]
  rfl

end Sys2Proof.Machine
end
